-- ==== Sys2Proof/Word.lean ====
section
/-!
DEFINITION. The word types of the core: bytes and the 9-bit program counter value.
-/

namespace Sys2Proof

/-- A byte: an unsigned integer in 0 to 255 (00_scope.md R7, R8). -/
abbrev Byte := BitVec 8

/-- A program counter value: an unsigned integer of 9 bits (00_scope.md R8, 10_state.md R29). -/
abbrev PcWord := BitVec 9

end Sys2Proof
end

