-- ==== Sys2Proof/Config.lean ====
section
/-!
DEFINITION. What is fixed for the machine: the parameters of 00_scope.md R5 and R6 that the rules use as numbers, the
names of the instructions, the type of the parameter OPCODE_MAP (30_encoding.md R94) and the open parameter CHARSET.
The default value of OPCODE_MAP stands in Decode.lean.
-/

namespace Sys2Proof

/-- `MEMSIZE`, the number of memory cells (00_scope.md R5). -/
abbrev Config.memSize : Nat := 256

/-- `NREG`, the number of general registers (00_scope.md R5). -/
abbrev Config.numRegs : Nat := 8

/-- `SP_INDEX`, the register used as stack pointer (00_scope.md R5, 10_state.md R25). -/
abbrev Config.spIndex : Fin 8 := 7

/-- `SP_RESET`, the reset value of register 7 (00_scope.md R5, 10_state.md R39). -/
abbrev Config.spReset : Byte := 0xF4

/-- `PC_RESET`, the reset value of the program counter (00_scope.md R6; the spec's decision D15). -/
abbrev Config.pcReset : PcWord := 0

/-- What an address nothing has written reads as: memory is created zero-filled (10_state.md R39, 20_memory.md R50). -/
abbrev Config.unwrittenByte : Byte := 0x00

/-- The 24 mnemonics, in the order of the table of 30_encoding.md R85. -/
inductive Mnemonic where
  | hlt | ldi | prn | pra
  | add | sub | mul | mod | inc | dec | cmp | and | or | xor | not | shl | shr
  | push | pop | call | ret | jmp | jeq | jne
  deriving DecidableEq, Repr

/-- `OPCODE_MAP : Mnemonic -> Byte`, which 30_encoding.md R94 makes a configuration value. -/
abbrev OpcodeMap := Mnemonic → Byte

/-- `CHARSET`, OPEN: which glyph the byte of a `Chr` event stands for belongs to the host (41_data_move_and_output.md
R133, decision D16). No body: nothing can be proved of its values. Log 4. -/
opaque Config.charset : Byte → Char

end Sys2Proof
end

