-- ==== Sys2Proof/Machine/State.lean ====
section
/-!
DEFINITION. The state of the core as plain data (10_state.md R20), the ways a step can stop, and the state after reset
(10_state.md R39).
-/

namespace Sys2Proof.Machine

/-- The run-state (10_state.md R33). -/
inductive RunState where
  /-- Steps exist. -/
  | running
  /-- HLT has retired. -/
  | halted
  /-- A fault has been raised. -/
  | faulted
  deriving DecidableEq, Repr

/-- The causes of a fault, by name: the name is the code (60_exceptions.md R200). -/
inductive FaultCause where
  /-- A fetch address above 255 (R201), or a register operand above 7 (R202); the info is that number. -/
  | outOfRangeAddress
  /-- Raised at decode by an opcode byte that selects no instruction; the info is the byte (R203). -/
  | illegalInstruction
  /-- Raised by MOD with a zero divisor; the info is the address of the MOD (R204). -/
  | divideByZero
  /-- A name that no rule produces (R205): the ALU is only given selectors it knows (42_alu.md R155). -/
  | unsupportedOperation
  deriving DecidableEq, Repr

/-- The pair (cause, info) of a fault (10_state.md R34). -/
structure FaultRecord where
  cause : FaultCause
  info : Nat
  deriving DecidableEq, Repr

/-- One event of the output stream (10_state.md R35). -/
inductive OutEvent where
  /-- What PRN emits. -/
  | num (v : Byte)
  /-- What PRA emits. -/
  | chr (v : Byte)
  deriving DecidableEq, Repr

/-- Memory as the cells that do not read as `Config.unwrittenByte`, by rising address: `Memory.wf` in Ops.lean says the
form (20_memory.md R50; log 8). -/
abbrev Memory := List Host.Cell

/-- The complete state of the core: the seven items of 10_state.md R20. -/
structure State where
  /-- 256 bytes, addresses 0 to 255 (20_memory.md R50). -/
  mem : Memory
  /-- `x[0]` to `x[7]` (10_state.md R21); 5 and 6 are inert (R23, R24), 7 is `SP` (R25). -/
  regs : Vector Byte 8
  /-- The flags register (10_state.md R30). -/
  fl : Byte
  /-- The program counter (10_state.md R27, R29). -/
  pc : PcWord
  /-- The run-state (10_state.md R33). -/
  run : RunState
  /-- The fault record, empty unless a fault was raised (10_state.md R34). -/
  fault : Option FaultRecord
  /-- The output stream, oldest event first (10_state.md R35). -/
  out : List OutEvent
  deriving DecidableEq, Repr

/-- How a step ends without a next state. -/
inductive Fault where
  /-- The step raised a fault of 60_exceptions.md R200: fetch, decode, the register checks and MOD's divisor check do.
  `left` is the state the fault leaves, with `run` and the fault record written (R209): the spec makes FAULTED a fault
  outcome of the step (R211). Safe. Log 1. -/
  | raised (cause : FaultCause) (info : Nat) (left : State)
  /-- Stuck, not a fault of the spec: no step exists in HALTED, the good end (40_sequencer.md R110, R211); the step
  answers this. Safe. Log 2. -/
  | noStepHalted
  /-- Stuck: no step exists in FAULTED (40_sequencer.md R110); the step answers this. Safe. Log 2. -/
  | noStepFaulted
  deriving DecidableEq, Repr

/-- Reasons for giving no meaning. No arm of `exec` uses one. -/
inductive Refusal where
  /-- An instruction without a meaning, by its mnemonic; raised by `exec`'s arm alone. Safe. -/
  | notModelled (mnemonic : String)
  deriving DecidableEq, Repr

/-- What executing an instruction answers. -/
abbrev Result := Host.Outcome State Fault Refusal

/-- The state after reset, before an image is loaded (10_state.md R39, 70_reset_and_hazards.md R230). -/
def State.reset : State where
  mem := []
  regs := #v[0, 0, 0, 0, 0, 0, 0, Config.spReset]
  fl := 0
  pc := Config.pcReset
  run := .running
  fault := none
  out := []

end Sys2Proof.Machine
end

