-- ==== Sys2Proof/Machine/Ops.lean ====
section
/-!
DEFINITION. The named operations: wrapping to 8 bits, memory, registers, advancing, raising a fault and settling an
attempted handler. A handler is written as an attempt: it answers the state it retires in, or the fault record it
raises; `settle` turns either into the outcome of the instruction.
-/

namespace Sys2Proof.Machine

/-- `wrap8(v) = v mod 256` on unbounded integers, `wrap8(-1) = 255` (00_scope.md R8). -/
def wrap8 (v : Int) : Byte := BitVec.ofInt 8 v

/-- `zext_9`: the same integer seen at the width of `pc` (00_scope.md R8). -/
def zext9 (v : Byte) : PcWord := BitVec.ofNat 9 v.toNat

/-! ### Memory -/

/-- The canonical form from address `lo` upward: addresses strictly rising and inside memory, and no cell listed that
holds what an unlisted address reads as. -/
def Memory.wfFrom (lo : Nat) : Memory → Bool
  | [] => true
  | (a, v) :: rest =>
    decide (lo ≤ a) && decide (a < Config.memSize) && decide (v ≠ Config.unwrittenByte) && Memory.wfFrom (a + 1) rest

/-- The canonical form of a memory. -/
def Memory.wf (m : Memory) : Bool := Memory.wfFrom 0 m

/-- The byte at an address: the one last written, or the reset value (20_memory.md R50). -/
def Memory.read : Memory → Nat → Byte
  | [], _ => Config.unwrittenByte
  | (b, w) :: rest, a => if b = a then w else Memory.read rest a

/-- A cell put before a memory, unless it holds what an unlisted address reads as. -/
def Memory.consCell (a : Nat) (v : Byte) (m : Memory) : Memory :=
  if v = Config.unwrittenByte then m else (a, v) :: m

/-- Store one byte, keeping the canonical form (20_memory.md R53: "It changes the one cell and nothing else"). -/
def Memory.write : Memory → Nat → Byte → Memory
  | [], a, v => Memory.consCell a v []
  | (b, w) :: rest, a, v =>
    if a < b then Memory.consCell a v ((b, w) :: rest)
    else if a = b then Memory.consCell a v rest
    else (b, w) :: Memory.write rest a v

/-- What a handler or a fetch comes to: a value, or the fault it raises. -/
abbrev Attempt (α : Type) := Except FaultRecord α

/-- `MemRead(addr, 1)` (20_memory.md R52). -/
def memRead (s : State) (addr : Nat) : Attempt Byte :=
  if addr > 255 then .error ⟨.outOfRangeAddress, addr⟩ else .ok (s.mem.read addr)

/-- `MemWrite(addr, 1, v)` (20_memory.md R53). -/
def memWrite (s : State) (addr : Nat) (v : Byte) : Attempt State :=
  if addr > 255 then .error ⟨.outOfRangeAddress, addr⟩ else .ok { s with mem := s.mem.write addr v }

/-- The host's store of one byte before a run (10_state.md R42); an address outside memory stores nothing. -/
def State.poke (s : State) (addr : Nat) (v : Byte) : State :=
  if addr < Config.memSize then { s with mem := s.mem.write addr v } else s

/-- The host's store of consecutive bytes from an address upward (70_reset_and_hazards.md R232). -/
def State.pokeBytes (s : State) (addr : Nat) : List Byte → State
  | [] => s
  | v :: rest => (s.poke addr v).pokeBytes (addr + 1) rest

/-! ### Registers, program counter, output -/

/-- `x[i]` (10_state.md R21). No register is hardwired (R22). -/
def State.reg (s : State) (i : Fin 8) : Byte := s.regs[i]

/-- `x[i] <- v` (10_state.md R21). -/
def State.setReg (s : State) (i : Fin 8) (v : Byte) : State := { s with regs := s.regs.set i v }

/-- `SP`, an abbreviation for `x[7]` (00_scope.md R9). -/
def State.sp (s : State) : Byte := s.reg Config.spIndex

/-- `x[7] <- wrap8(x[7] - 1)` (10_state.md R25). -/
def State.decSp (s : State) : State := s.setReg Config.spIndex (wrap8 (s.sp.toNat - 1))

/-- `x[7] <- wrap8(x[7] + 1)` (10_state.md R25). -/
def State.incSp (s : State) : State := s.setReg Config.spIndex (wrap8 (s.sp.toNat + 1))

/-- The advance, `pc <- pc + n + 1` with `n` the operand count (40_sequencer.md R114). In a step the sum is at most 256
(10_state.md R29); outside one it is taken at the width of `pc`, log 3. -/
def State.advance (s : State) (n : Nat) : State := { s with pc := s.pc + BitVec.ofNat 9 (n + 1) }

/-- `pc <- zext_9(v)`, an absolute target (44_control_transfer.md R180). -/
def State.jumpTo (s : State) (v : Byte) : State := { s with pc := zext9 v }

/-- The address of the byte after a one-operand instruction, `pc + 2`, as the byte CALL stores; in a step it is at most
255 (44_control_transfer.md R181). -/
def State.returnAddress (s : State) : Byte := wrap8 (s.pc.toNat + 2)

/-- `out <- out ++ [e]` (10_state.md R35). -/
def State.emit (s : State) (e : OutEvent) : State := { s with out := s.out ++ [e] }

/-! ### Faults -/

/-- The state a fault leaves: the state before the step, but for `run` and the fault record (60_exceptions.md R209). -/
def State.faultedWith (s : State) (r : FaultRecord) : State := { s with run := .faulted, fault := some r }

/-- `raise C(i)`, from the state before the step (60_exceptions.md R209). There is no return from it (R210). -/
def raise (s : State) (r : FaultRecord) : Result := .fault (.raised r.cause r.info (s.faultedWith r))

/-- The outcome of an instruction that started in `s`: the step retires with all its writes, or faults with none
(40_sequencer.md R120). -/
def settle (s : State) : Attempt State → Result
  | .ok t => .next t
  | .error r => raise s r

end Sys2Proof.Machine
end

