-- ==== Sys2Proof/Machine/Flags.lean ====
section
/-!
DEFINITION. The flags register: its bits, the value CMP gives it and the tests of the conditional jumps. There is no
other flag computation (10_state.md R31).
-/

namespace Sys2Proof.Machine

/-- E, bit 0, "equal" (10_state.md R30). -/
def flagE : Byte := 0b00000001

/-- G, bit 1, "greater-than" (10_state.md R30). -/
def flagG : Byte := 0b00000010

/-- L, bit 2, "less-than" (10_state.md R30). -/
def flagL : Byte := 0b00000100

/-- The whole byte that CMP writes for a left and a right value, compared as unsigned (42_alu.md R148). -/
def compareFlags (left right : Byte) : Byte :=
  if left = right then flagE else if left.toNat > right.toNat then flagG else flagL

/-- The condition of JEQ, a test of the whole byte (44_control_transfer.md R184). -/
def jeqTaken (fl : Byte) : Bool := fl == 0x01

/-- The condition of JNE, the exact negation (44_control_transfer.md R185). -/
def jneTaken (fl : Byte) : Bool := fl != 0x01

end Sys2Proof.Machine
end

