-- ==== Sys2Proof/Machine/Operands.lean ====
section
/-!
DEFINITION. The operand forms (30_encoding.md R83, R84): a register operand is a whole byte that is checked, and LDI's
immediate is the byte itself, so it needs no operation.
-/

namespace Sys2Proof.Machine

/-- `Reg(v)`: the register that a whole operand byte names, else `OutOfRangeAddress(v)` (30_encoding.md R83). -/
def regIndex (v : Byte) : Attempt (Fin 8) :=
  if h : v.toNat < 8 then .ok ⟨v.toNat, h⟩ else .error ⟨.outOfRangeAddress, v.toNat⟩

/-- The two-register form that writes register `a`: both checks, `a` first, then both reads, then the write
(42_alu.md R140, R156, R158). -/
def writeBinary (f : Byte → Byte → Byte) (a b : Byte) (s : State) : Attempt State := do
  let d ← regIndex a
  let r ← regIndex b
  pure ((s.setReg d (f (s.reg d) (s.reg r))).advance 2)

/-- The one-register form that writes register `a` (42_alu.md R140, R158). -/
def writeUnary (f : Byte → Byte) (a : Byte) (s : State) : Attempt State := do
  let d ← regIndex a
  pure ((s.setReg d (f (s.reg d))).advance 1)

/-- The one-register form that emits an event made of register `a` (41_data_move_and_output.md R131, R132). -/
def emitRegister (event : Byte → OutEvent) (a : Byte) (s : State) : Attempt State := do
  let r ← regIndex a
  pure ((s.emit (event (s.reg r))).advance 1)

/-- The one-register form that transfers to the byte in register `a` when `taken`, else advances; the register check
comes first, taken or not (44_control_transfer.md R180, R183 to R185). -/
def jumpIf (taken : Bool) (a : Byte) (s : State) : Attempt State := do
  let r ← regIndex a
  pure (if taken then s.jumpTo (s.reg r) else s.advance 1)

end Sys2Proof.Machine
end

