-- ==== Sys2Proof/Machine/Alu.lean ====
section
/-!
DEFINITION. The ALU instructions (42_alu.md). Operands are unsigned bytes; a result is computed exactly and wrapped to
8 bits (R141). Only CMP writes the flags (R157).
-/

namespace Sys2Proof.Machine

/-! ### Values -/

/-- R142. -/
def aluAdd (x y : Byte) : Byte := wrap8 (x.toNat + y.toNat)

/-- R143. -/
def aluSub (x y : Byte) : Byte := wrap8 ((x.toNat : Int) - y.toNat)

/-- R144. -/
def aluMul (x y : Byte) : Byte := wrap8 (x.toNat * y.toNat)

/-- R145, for a nonzero divisor. -/
def aluMod (x y : Byte) : Byte := wrap8 (x.toNat % y.toNat)

/-- R146. -/
def aluInc (x : Byte) : Byte := wrap8 (x.toNat + 1)

/-- R147. -/
def aluDec (x : Byte) : Byte := wrap8 ((x.toNat : Int) - 1)

/-- R149. -/
def aluAnd (x y : Byte) : Byte := x &&& y

/-- R150. -/
def aluOr (x y : Byte) : Byte := x ||| y

/-- R151. -/
def aluXor (x y : Byte) : Byte := x ^^^ y

/-- R152. -/
def aluNot (x : Byte) : Byte := wrap8 (255 - (x.toNat : Int))

/-- R153: the count is the whole byte, not reduced. -/
def aluShl (x count : Byte) : Byte := wrap8 (x.toNat * 2 ^ count.toNat)

/-- R154: logical, the count is the whole byte. -/
def aluShr (x count : Byte) : Byte := wrap8 (x.toNat / 2 ^ count.toNat)

/-! ### Instructions -/

/-- ADD (R142). -/
def execAdd (a b : Byte) (s : State) : Result := settle s (writeBinary aluAdd a b s)

/-- SUB (R143). -/
def execSub (a b : Byte) (s : State) : Result := settle s (writeBinary aluSub a b s)

/-- MUL (R144). -/
def execMul (a b : Byte) (s : State) : Result := settle s (writeBinary aluMul a b s)

/-- MOD: after both register checks a zero divisor raises `DivideByZero(pc)` (R145). -/
def execMod (a b : Byte) (s : State) : Result := settle s do
  let d ← regIndex a
  let r ← regIndex b
  if s.reg r = 0 then throw ⟨.divideByZero, s.pc.toNat⟩
  else pure ((s.setReg d (aluMod (s.reg d) (s.reg r))).advance 2)

/-- INC (R146). -/
def execInc (a : Byte) (s : State) : Result := settle s (writeUnary aluInc a s)

/-- DEC (R147). -/
def execDec (a : Byte) (s : State) : Result := settle s (writeUnary aluDec a s)

/-- CMP: the whole flags byte is replaced, no register is written (R148). -/
def execCmp (a b : Byte) (s : State) : Result := settle s do
  let p ← regIndex a
  let q ← regIndex b
  pure ({ s with fl := compareFlags (s.reg p) (s.reg q) }.advance 2)

/-- AND (R149). -/
def execAnd (a b : Byte) (s : State) : Result := settle s (writeBinary aluAnd a b s)

/-- OR (R150). -/
def execOr (a b : Byte) (s : State) : Result := settle s (writeBinary aluOr a b s)

/-- XOR (R151). -/
def execXor (a b : Byte) (s : State) : Result := settle s (writeBinary aluXor a b s)

/-- NOT (R152). -/
def execNot (a : Byte) (s : State) : Result := settle s (writeUnary aluNot a s)

/-- SHL (R153). -/
def execShl (a b : Byte) (s : State) : Result := settle s (writeBinary aluShl a b s)

/-- SHR (R154). -/
def execShr (a b : Byte) (s : State) : Result := settle s (writeBinary aluShr a b s)

end Sys2Proof.Machine
end

