-- ==== Sys2Proof/Machine/Stack.lean ====
section
/-!
DEFINITION. PUSH and POP (43_stack.md), with the statement order of the rules, and the stack store and load that CALL
and RET share with them (R170).
-/

namespace Sys2Proof.Machine

/-- The stack store, after the decrement: the byte goes to the new stack pointer (R170; 20_memory.md R54). -/
def storeAtSp (s : State) (v : Byte) : Attempt State := memWrite s s.sp.toNat v

/-- The stack load, before the increment: the byte at the current stack pointer (R170; 20_memory.md R54). -/
def loadAtSp (s : State) : Attempt Byte := memRead s s.sp.toNat

/-- PUSH: decrement, then write the register as read after the decrement (R171). -/
def execPush (a : Byte) (s : State) : Result := settle s do
  let r ← regIndex a
  let s1 := s.decSp
  let s2 ← storeAtSp s1 (s1.reg r)
  pure (s2.advance 1)

/-- POP: the register write, then the increment (R172). -/
def execPop (a : Byte) (s : State) : Result := settle s do
  let d ← regIndex a
  let v ← loadAtSp s
  pure ((s.setReg d v).incSp.advance 1)

end Sys2Proof.Machine
end

