-- ==== Sys2Proof/Machine/Control.lean ====
section
/-!
DEFINITION. CALL, RET, JMP, JEQ and JNE (44_control_transfer.md).
-/

namespace Sys2Proof.Machine

/-- CALL: decrement, store `pc + 2`, then transfer to the register as read after the decrement (R181). -/
def execCall (a : Byte) (s : State) : Result := settle s do
  let r ← regIndex a
  let s1 := s.decSp
  let s2 ← storeAtSp s1 s.returnAddress
  pure (s2.jumpTo (s2.reg r))

/-- RET: transfer to the byte at the top of the stack, then increment (R182). -/
def execRet (s : State) : Result := settle s do
  let v ← loadAtSp s
  pure (s.jumpTo v).incSp

/-- JMP (R183). -/
def execJmp (a : Byte) (s : State) : Result := settle s (jumpIf true a s)

/-- JEQ (R184). -/
def execJeq (a : Byte) (s : State) : Result := settle s (jumpIf (jeqTaken s.fl) a s)

/-- JNE (R185). -/
def execJne (a : Byte) (s : State) : Result := settle s (jumpIf (jneTaken s.fl) a s)

end Sys2Proof.Machine
end

