-- ==== Sys2Proof/Machine/DataMove.lean ====
section
/-!
DEFINITION. LDI, PRN and PRA (41_data_move_and_output.md).
-/

namespace Sys2Proof.Machine

/-- LDI: `x[a]` becomes the immediate byte; the immediate is never checked (R130). -/
def execLdi (a imm : Byte) (s : State) : Result := settle s do
  let d ← regIndex a
  pure ((s.setReg d imm).advance 2)

/-- PRN: emit the register as a number (R131). -/
def execPrn (a : Byte) (s : State) : Result := settle s (emitRegister .num a s)

/-- PRA: emit the register as a character, whatever the byte (R132). -/
def execPra (a : Byte) (s : State) : Result := settle s (emitRegister .chr a s)

end Sys2Proof.Machine
end

