-- ==== Sys2Proof/Syntax.lean ====
section
/-!
DEFINITION. The instructions as syntax: one constructor per row of the opcode table (30_encoding.md R85), holding only
the operand bytes that the instruction uses (R82). A register operand is the whole byte (R83): that it names a register
is checked by the handler, so every byte is an operand here.
-/

namespace Sys2Proof

/-- The 24 instructions (00_scope.md R2). Operand `a` is the byte at `pc+1`, operand `b` the byte at `pc+2` (R82). -/
inductive Instr where
  | hlt
  | ldi (a imm : Byte)
  | prn (a : Byte)
  | pra (a : Byte)
  | add (a b : Byte)
  | sub (a b : Byte)
  | mul (a b : Byte)
  | mod (a b : Byte)
  | inc (a : Byte)
  | dec (a : Byte)
  | cmp (a b : Byte)
  | and (a b : Byte)
  | or (a b : Byte)
  | xor (a b : Byte)
  | not (a : Byte)
  | shl (a b : Byte)
  | shr (a b : Byte)
  | push (a : Byte)
  | pop (a : Byte)
  | call (a : Byte)
  | ret
  | jmp (a : Byte)
  | jeq (a : Byte)
  | jne (a : Byte)
  deriving DecidableEq, Repr

/-- The mnemonic of an instruction. -/
def Instr.mnemonic : Instr → Mnemonic
  | .hlt => .hlt
  | .ldi _ _ => .ldi
  | .prn _ => .prn
  | .pra _ => .pra
  | .add _ _ => .add
  | .sub _ _ => .sub
  | .mul _ _ => .mul
  | .mod _ _ => .mod
  | .inc _ => .inc
  | .dec _ => .dec
  | .cmp _ _ => .cmp
  | .and _ _ => .and
  | .or _ _ => .or
  | .xor _ _ => .xor
  | .not _ => .not
  | .shl _ _ => .shl
  | .shr _ _ => .shr
  | .push _ => .push
  | .pop _ => .pop
  | .call _ => .call
  | .ret => .ret
  | .jmp _ => .jmp
  | .jeq _ => .jeq
  | .jne _ => .jne

/-- The operand bytes of an instruction, in the order in which they follow the opcode byte (R80, R82). -/
def Instr.operands : Instr → List Byte
  | .hlt | .ret => []
  | .prn a | .pra a | .inc a | .dec a | .not a | .push a | .pop a | .call a | .jmp a | .jeq a | .jne a => [a]
  | .ldi a b | .add a b | .sub a b | .mul a b | .mod a b | .cmp a b | .and a b | .or a b | .xor a b | .shl a b
  | .shr a b => [a, b]

/-- The operand bytes that an instruction uses as register indices, in the order in which they are checked
(60_exceptions.md R202): LDI's `b` is an immediate and is not among them. -/
def Instr.registerOperands : Instr → List Byte
  | .hlt | .ret => []
  | .prn a | .pra a | .inc a | .dec a | .not a | .push a | .pop a | .call a | .jmp a | .jeq a | .jne a => [a]
  | .ldi a _ => [a]
  | .add a b | .sub a b | .mul a b | .mod a b | .cmp a b | .and a b | .or a b | .xor a b | .shl a b
  | .shr a b => [a, b]

end Sys2Proof
end

