-- ==== Sys2Proof/WellFormed.lean ====
section
/-!
DEFINITION. Which instructions are well formed: every operand byte used as a register index names a register, 0 to 7
(30_encoding.md R83, 60_exceptions.md R202). An instruction that is not well formed still decodes, and its handler
raises `OutOfRangeAddress` (R83), so no statement about the machine is limited to well-formed instructions.
-/

namespace Sys2Proof

/-- A byte names a register: it is in 0 to 7 (10_state.md R21, 30_encoding.md R83). -/
def isRegisterIndex (b : Byte) : Bool := decide (b.toNat < Config.numRegs)

/-- Every register operand of the instruction names a register. -/
def Instr.wellFormed (i : Instr) : Bool := i.registerOperands.all isRegisterIndex

end Sys2Proof
end

