-- ==== Sys2Proof/Decode.lean ====
section
/-!
DEFINITION. The opcode map with the constraints on it, the decoder (total on any bytes, rejecting by name) and the
encoder. Both take the map as an argument (30_encoding.md R94); `decode` and `encode` use the default map of R85.
-/

namespace Sys2Proof

/-- `OPCODE_MAP`, the default: the table of 30_encoding.md R85. HLT, LDI and PRN are the document's; the low nibbles of
the other rows, and the whole bytes of SUB, MOD, XOR, SHL and SHR, the spec marks as general knowledge (G1, G2); see
log 7. -/
def Config.opcodeMap : OpcodeMap
  | .hlt => 0b00000001
  | .ldi => 0b10000010
  | .prn => 0b01000111
  | .pra => 0b01001000
  | .add => 0b10100000
  | .sub => 0b10100001
  | .mul => 0b10100010
  | .mod => 0b10100100
  | .inc => 0b01100101
  | .dec => 0b01100110
  | .cmp => 0b10100111
  | .and => 0b10101000
  | .or => 0b10101010
  | .xor => 0b10101011
  | .not => 0b01101001
  | .shl => 0b10101100
  | .shr => 0b10101101
  | .push => 0b01000101
  | .pop => 0b01000110
  | .call => 0b01010000
  | .ret => 0b00010001
  | .jmp => 0b01010100
  | .jeq => 0b01010101
  | .jne => 0b01010110

/-- The mnemonics of 30_encoding.md R85, in its order. -/
def Mnemonic.all : List Mnemonic :=
  [.hlt, .ldi, .prn, .pra, .add, .sub, .mul, .mod, .inc, .dec, .cmp, .and, .or, .xor, .not, .shl, .shr,
   .push, .pop, .call, .ret, .jmp, .jeq, .jne]

/-- The operand count `n` of an instruction: its format F0, F1 or F2 (30_encoding.md R82, R85). -/
def Mnemonic.operandCount : Mnemonic → Nat
  | .hlt | .ret => 0
  | .prn | .pra | .inc | .dec | .not | .push | .pop | .call | .jmp | .jeq | .jne => 1
  | .ldi | .add | .sub | .mul | .mod | .cmp | .and | .or | .xor | .shl | .shr => 2

/-- The ALU instructions: exactly these have bit 5 of their opcode set (30_encoding.md R81, R94; 42_alu.md). -/
def Mnemonic.isAlu : Mnemonic → Bool
  | .add | .sub | .mul | .mod | .inc | .dec | .cmp | .and | .or | .xor | .not | .shl | .shr => true
  | .hlt | .ldi | .prn | .pra | .push | .pop | .call | .ret | .jmp | .jeq | .jne => false

/-- The instructions that set the program counter: exactly these have bit 4 of their opcode set (30_encoding.md R81,
R94). -/
def Mnemonic.setsPc : Mnemonic → Bool
  | .call | .ret | .jmp | .jeq | .jne => true
  | .hlt | .ldi | .prn | .pra | .add | .sub | .mul | .mod | .inc | .dec | .cmp | .and | .or | .xor | .not | .shl
  | .shr | .push | .pop => false

/-- Field `n` of an opcode byte, bits 7:6 (30_encoding.md R81). -/
def opcodeCount (ir : Byte) : Nat := ir.toNat / 64

/-- Field `alu` of an opcode byte, bit 5 (30_encoding.md R81). -/
def opcodeAlu (ir : Byte) : Bool := ir.getLsbD 5

/-- Field `setpc` of an opcode byte, bit 4 (30_encoding.md R81). -/
def opcodeSetsPc (ir : Byte) : Bool := ir.getLsbD 4

/-- Field `id` of an opcode byte, bits 3:0 (30_encoding.md R81). -/
def opcodeId (ir : Byte) : Nat := ir.toNat % 16

/-- The length in bytes of an instruction, told from its opcode byte alone (30_encoding.md R80, R89). -/
def opcodeLength (ir : Byte) : Nat := opcodeCount ir + 1

/-- The constraints that 30_encoding.md R94 puts on any admissible map. -/
structure OpcodeMap.Admissible (map : OpcodeMap) : Prop where
  injective : ∀ m n : Mnemonic, map m = map n → m = n
  hlt : map .hlt = 0x01
  ldi : map .ldi = 0x82
  prn : map .prn = 0x47
  count : ∀ m : Mnemonic, opcodeCount (map m) = m.operandCount
  alu : ∀ m : Mnemonic, opcodeAlu (map m) = m.isAlu
  setsPc : ∀ m : Mnemonic, opcodeSetsPc (map m) = m.setsPc

/-- The mnemonic that a byte selects: all eight bits are compared (30_encoding.md R85, 40_sequencer.md R112). -/
def OpcodeMap.lookup (map : OpcodeMap) (ir : Byte) : Option Mnemonic :=
  Mnemonic.all.find? (fun m => map m == ir)

/-- The instruction with this mnemonic and these operand bytes; an operand the format does not have is dropped
(30_encoding.md R82, R90). -/
def Mnemonic.withOperands (m : Mnemonic) (a b : Byte) : Instr :=
  match m with
  | .hlt => .hlt
  | .ldi => .ldi a b
  | .prn => .prn a
  | .pra => .pra a
  | .add => .add a b
  | .sub => .sub a b
  | .mul => .mul a b
  | .mod => .mod a b
  | .inc => .inc a
  | .dec => .dec a
  | .cmp => .cmp a b
  | .and => .and a b
  | .or => .or a b
  | .xor => .xor a b
  | .not => .not a
  | .shl => .shl a b
  | .shr => .shr a b
  | .push => .push a
  | .pop => .pop a
  | .call => .call a
  | .ret => .ret
  | .jmp => .jmp a
  | .jeq => .jeq a
  | .jne => .jne a

/-- Why bytes are no instruction. -/
inductive DecodeReject where
  /-- The opcode byte selects no instruction (30_encoding.md R87). -/
  | illegalInstruction (ir : Byte)
  /-- Fewer than the three bytes that a fetch always delivers (30_encoding.md R90). -/
  | tooFewBytes
  deriving DecidableEq, Repr

/-- Decode the bytes of a fetch: opcode byte, then the two lookahead bytes (40_sequencer.md R111, R112). -/
def decodeWith (map : OpcodeMap) : List Byte → Except DecodeReject Instr
  | ir :: a :: b :: _ =>
    match map.lookup ir with
    | some m => .ok (m.withOperands a b)
    | none => .error (.illegalInstruction ir)
  | _ => .error .tooFewBytes

/-- The decoder of this hardware, with the default map. -/
def decode (bytes : List Byte) : Except DecodeReject Instr := decodeWith Config.opcodeMap bytes

/-- The bytes of an instruction at ascending addresses: opcode, then operands (30_encoding.md R80, 20_memory.md R57). -/
def encodeWith (map : OpcodeMap) (i : Instr) : List Byte := map i.mnemonic :: i.operands

/-- The encoder of this hardware, with the default map. -/
def encode (i : Instr) : List Byte := encodeWith Config.opcodeMap i

/-- The three bytes of a table word: the first byte is bits 7..0, the next bits 15..8, then bits 23..16; every bit from
`nbits` upward is 0. -/
def tableWordBytes (nbits w : Nat) : List Byte :=
  let v := w % 2 ^ nbits
  [BitVec.ofNat 8 v, BitVec.ofNat 8 (v / 256), BitVec.ofNat 8 (v / 65536)]

/-- The instruction the decoder reads from a word numbered as spec/opcode_table.json numbers it. -/
def decodeTableWord (nbits w : Nat) : Option Instr :=
  match decode (tableWordBytes nbits w) with
  | .ok i => some i
  | .error _ => none

end Sys2Proof
end

