-- ==== Sys2Proof/Machine/Sequencer.lean ====
section
/-!
DEFINITION. Fetch and decode (40_sequencer.md R111, R112) and HLT (R117).
-/

namespace Sys2Proof.Machine

/-- The three reads of a fetch, in order, each of which can fault; the additions do not wrap (40_sequencer.md R111). -/
def fetch (s : State) : Attempt (List Byte) := do
  let ir ← memRead s s.pc.toNat
  let a ← memRead s (s.pc.toNat + 1)
  let b ← memRead s (s.pc.toNat + 2)
  pure [ir, a, b]

/-- Decode of fetched bytes: an opcode byte outside the map raises `IllegalInstruction(ir)` (40_sequencer.md R112,
R118). Fetched bytes are never too few: log 9. -/
def decodeFetched (map : OpcodeMap) (bytes : List Byte) : Attempt Instr :=
  match decodeWith map bytes with
  | .ok i => .ok i
  | .error (.illegalInstruction ir) => .error ⟨.illegalInstruction, ir.toNat⟩
  | .error .tooFewBytes => .error ⟨.illegalInstruction, 0⟩

/-- Fetch, then decode: a fetch fault takes precedence (40_sequencer.md R112, 60_exceptions.md R208). -/
def fetchInstr (map : OpcodeMap) (s : State) : Attempt Instr := do
  let bytes ← fetch s
  decodeFetched map bytes

/-- HLT: the advance, then the halt check (40_sequencer.md R117, R115). -/
def execHlt (s : State) : Result := .next { s.advance 0 with run := .halted }

end Sys2Proof.Machine
end

