-- ==== Sys2Proof/Machine/Step.lean ====
section
/-!
DEFINITION. The whole step (40_sequencer.md R116), for any opcode map and for the default one, and the placing of one
instruction where the next fetch reads it.
-/

namespace Sys2Proof.Machine

/-- One step: `require run = RUNNING`, fetch, decode, execute (40_sequencer.md R116). The advance and the halt check are
in the handlers. No step exists in HALTED or FAULTED (R110, log 2). -/
def stepWith (map : OpcodeMap) (s : State) : Host.Outcome State Fault Refusal :=
  match s.run with
  | .running =>
    match fetchInstr map s with
    | .ok i => exec i s
    | .error r => raise s r
  | .halted => .fault .noStepHalted
  | .faulted => .fault .noStepFaulted

/-- One step of this hardware, with the default map of 30_encoding.md R85. -/
def step (s : State) : Host.Outcome State Fault Refusal := stepWith Config.opcodeMap s

/-- The state with the instruction of a table word stored at `pc`, `pc+1` and `pc+2`, where the next fetch reads it
(40_sequencer.md R111). It stands for the host's load (10_state.md R42, log 6). -/
def State.withFetchWord (s : State) (nbits w : Nat) : State := s.pokeBytes s.pc.toNat (tableWordBytes nbits w)

end Sys2Proof.Machine
end

