-- ==== Sys2Proof/Machine/Loader.lean ====
section
/-!
DEFINITION. The host's reset and load interfaces: the start state that an image gives (70_reset_and_hazards.md R232, R233), and the
program text as lines of characters (30_encoding.md R91). The core runs none of this.
-/

namespace Sys2Proof.Machine

/-- The loader's errors: they stop the host before the core runs (60_exceptions.md R206). -/
inductive LoadError where
  /-- A token that is not a base-2 integer, or one above 255 (70_reset_and_hazards.md R233). -/
  | programLoadError
  /-- More than 256 bytes (70_reset_and_hazards.md R233). -/
  | programTooLarge
  deriving DecidableEq, Repr

/-- The host's reset, from any state: no state survives it (10_state.md R40, R41). -/
def hostReset (_ : State) : State := State.reset

/-- The start state: reset, with `mem[k] = image[k]`; an image that does not fit is refused (R232, R233). -/
def loadImage (image : List Byte) : Except LoadError State :=
  if image.length > Config.memSize then .error .programTooLarge else .ok (State.reset.pokeBytes 0 image)

/-- A character of a base-2 integer. -/
def isBinaryDigit (c : Char) : Bool := c == '0' || c == '1'

/-- The value of a token of binary digits, the first one most significant. -/
def binaryValue (token : List Char) : Nat := token.foldl (fun v c => 2 * v + (if c = '1' then 1 else 0)) 0

/-- One token as a byte (R233; the spec's decision D18 for a value above 255). Log 5. -/
def parseToken (token : List Char) : Except LoadError Byte :=
  if token.all isBinaryDigit && decide (binaryValue token ≤ 255) then .ok (BitVec.ofNat 8 (binaryValue token))
  else .error .programLoadError

/-- A line's token: the content before a `#`, trimmed (30_encoding.md R91). Log 5. -/
def lineToken (line : List Char) : List Char :=
  let content := line.takeWhile (fun c => c != '#')
  ((content.dropWhile Char.isWhitespace).reverse.dropWhile Char.isWhitespace).reverse

/-- The image of a program text: blank lines are skipped and are no addresses (30_encoding.md R91). -/
def parseProgram : List (List Char) → Except LoadError (List Byte)
  | [] => .ok []
  | line :: rest =>
    if lineToken line = [] then parseProgram rest
    else do
      let v ← parseToken (lineToken line)
      let image ← parseProgram rest
      pure (v :: image)

/-- Load a program text: parse it, then place the image. Log 5. -/
def loadProgram (lines : List (List Char)) : Except LoadError State := do
  let image ← parseProgram lines
  loadImage image

end Sys2Proof.Machine
end

