-- ==== Sys2Proof/Machine/Render.lean ====
section
/-!
DEFINITION. What the host reads: the rendering of the output stream as text (41_data_move_and_output.md R133) and the
trace (10_state.md R45). The events are the normative content; no step uses this file.
-/

namespace Sys2Proof.Machine

/-- One decimal digit. -/
def decimalDigit (d : Nat) : Char := Char.ofNat (48 + d)

/-- The decimal digits of a byte: no sign, no leading zeros, no padding, and `0` for 0 (R133). -/
def decimalDigits (v : Byte) : List Char :=
  let n := v.toNat
  if n ≥ 100 then [decimalDigit (n / 100), decimalDigit (n / 10 % 10), decimalDigit (n % 10)]
  else if n ≥ 10 then [decimalDigit (n / 10), decimalDigit (n % 10)]
  else [decimalDigit n]

/-- The rendering of one event: a number has its line terminator, the line feed 0x0A; a character has none (R133). -/
def OutEvent.render : OutEvent → List Char
  | .num v => decimalDigits v ++ [Char.ofNat 0x0A]
  | .chr v => [Config.charset v]

/-- The rendering of a stream: the concatenation of its events' renderings, in order (R133). -/
def renderOutput : List OutEvent → List Char
  | [] => []
  | e :: rest => e.render ++ renderOutput rest

/-- What a trace reads: the program counter, the next three memory bytes and the register file (10_state.md R45). -/
structure TraceView where
  pc : PcWord
  /-- The bytes at `pc`, `pc+1` and `pc+2`; none at an address above 255, where the spec gives nothing (log 10). -/
  bytes : List (Option Byte)
  regs : Vector Byte 8
  deriving DecidableEq, Repr

/-- The byte a trace reads at an address: it cannot fault the core (60_exceptions.md R216). -/
def State.traceByte (s : State) (addr : Nat) : Option Byte :=
  if addr < Config.memSize then some (s.mem.read addr) else none

/-- The trace of a state, a read that changes nothing (10_state.md R45, 60_exceptions.md R216). -/
def State.trace (s : State) : TraceView where
  pc := s.pc
  bytes := [s.traceByte s.pc.toNat, s.traceByte (s.pc.toNat + 1), s.traceByte (s.pc.toNat + 2)]
  regs := s.regs

end Sys2Proof.Machine
end

