-- ==== Sys2Proof/Safety.lean ====
section
/-!
DEFINITION. The invariant of the machine and what counts as a good end of a run.
-/

namespace Sys2Proof.Machine

/-- The values `fl` takes in a run (10_state.md R32). -/
def legalFlags (fl : Byte) : Bool := fl == 0x00 || fl == 0x01 || fl == 0x02 || fl == 0x04

/-- What holds in every state that a run produces: memory is in its canonical form, `pc` is at most 256 (10_state.md
R29), `fl` is one of four values (R32), and the fault record is set exactly in FAULTED (R34). -/
structure State.Inv (s : State) : Prop where
  memory : s.mem.wf = true
  pcRange : s.pc.toNat ≤ 256
  flags : legalFlags s.fl = true
  record : s.fault = none ↔ s.run ≠ .faulted

/-- The good end: the program retired HLT (60_exceptions.md R211). FAULTED is never one. -/
def State.goodEnd (s : State) : Prop := s.run = .halted

/-- A run of `k` steps that ends well. -/
def SafeRun (k : Nat) (s : State) : Prop := ∃ t, Sys2Proof.core.run k s = .next t ∧ t.goodEnd

end Sys2Proof.Machine
end

