-- ==== Sys2Proof/Certificates/Slice0/Obligations.lean ====
section
/-!
DEFINITION. The statements for the provers. The words shared by several statements come first; each statement's
docstring names the rule it formalises. Of the opcode bytes only three are the source document's; a statement about an
instruction or a step therefore holds for EVERY admissible map (30_encoding.md R94), and the default map's own bytes
stand in OpcodeTableRowsDecode alone (log 7).
-/

open Sys2Proof Sys2Proof.Machine

namespace Sys2Proof.Claims

/-! ### Words of the statements -/

/-- The outcome of `raise C(i)` in a step that started in `s`, written out from 60_exceptions.md R209. -/
def faultOf (s : State) (cause : FaultCause) (info : Nat) : Result :=
  .fault (.raised cause info
    { mem := s.mem, regs := s.regs, fl := s.fl, pc := s.pc, run := .faulted, fault := some ⟨cause, info⟩,
      out := s.out })

/-- The three bytes from `pc` upward. -/
def bytesAtPc (s : State) : List Byte :=
  [s.mem.read s.pc.toNat, s.mem.read (s.pc.toNat + 1), s.mem.read (s.pc.toNat + 2)]

/-- Every register reads as before. -/
def KeepsRegisters (s t : State) : Prop := ∀ q : Fin 8, t.reg q = s.reg q

/-- Every register but one reads as before. -/
def KeepsRegistersBut (d : Fin 8) (s t : State) : Prop := ∀ q : Fin 8, q ≠ d → t.reg q = s.reg q

/-- Every address of memory reads as before. -/
def KeepsMemory (s t : State) : Prop := ∀ x : Nat, t.mem.read x = s.mem.read x

/-- Every address of memory but one reads as before. -/
def KeepsMemoryBut (p : Nat) (s t : State) : Prop := ∀ x : Nat, x ≠ p → t.mem.read x = s.mem.read x

/-- The run-state and the fault record are as before. -/
def KeepsRunAndFault (s t : State) : Prop := t.run = s.run ∧ t.fault = s.fault

/-- The frame of an instruction of `n` bytes whose one effect is on register `d`. -/
def OnlyRegisterWritten (d : Fin 8) (n : Nat) (s t : State) : Prop :=
  KeepsRegistersBut d s t ∧ t.pc.toNat = s.pc.toNat + n ∧ t.fl = s.fl ∧ KeepsMemory s t ∧ t.out = s.out ∧
  KeepsRunAndFault s t

/-- The checks of a one-register instruction (42_alu.md R158, 60_exceptions.md R202). -/
def OneRegisterCheck (mk : Byte → Instr) : Prop :=
  ∀ (a : Byte) (s : State), 7 < a.toNat → exec (mk a) s = faultOf s .outOfRangeAddress a.toNat

/-- The checks of a two-register instruction, `a` before `b` (42_alu.md R158, 60_exceptions.md R202). -/
def TwoRegisterChecks (mk : Byte → Byte → Instr) : Prop :=
  ∀ (a b : Byte) (s : State),
    (7 < a.toNat → exec (mk a b) s = faultOf s .outOfRangeAddress a.toNat) ∧
    (a.toNat ≤ 7 → 7 < b.toNat → exec (mk a b) s = faultOf s .outOfRangeAddress b.toNat)

/-- Under every admissible map the opcode of `m`, with any two bytes after it, is this instruction. -/
def Selects (m : Mnemonic) (mk : Byte → Byte → Instr) : Prop :=
  ∀ map : OpcodeMap, map.Admissible → ∀ a b : Byte, decodeWith map [map m, a, b] = .ok (mk a b)

/-- A two-register instruction that writes register `a`: its encoding, its checks, and, from a state whose fetch can
have succeeded, its result and its frame. `value x y z` says that `z` is the result for the old values `x` and `y`. -/
def TwoRegisterRule (m : Mnemonic) (mk : Byte → Byte → Instr) (value : Byte → Byte → Byte → Prop) : Prop :=
  Selects m mk ∧ TwoRegisterChecks mk ∧
  ∀ (a b : Byte) (d r : Fin 8) (s : State), a.toNat = d.val → b.toNat = r.val → s.pc.toNat ≤ 253 →
    ∃ t, exec (mk a b) s = .next t ∧ value (s.reg d) (s.reg r) (t.reg d) ∧ OnlyRegisterWritten d 3 s t

/-- A one-register instruction that writes register `a`, in the same way. -/
def OneRegisterRule (m : Mnemonic) (mk : Byte → Instr) (value : Byte → Byte → Prop) : Prop :=
  Selects m (fun a _ => mk a) ∧ OneRegisterCheck mk ∧
  ∀ (a : Byte) (d : Fin 8) (s : State), a.toNat = d.val → s.pc.toNat ≤ 253 →
    ∃ t, exec (mk a) s = .next t ∧ value (s.reg d) (t.reg d) ∧ OnlyRegisterWritten d 2 s t

/-- An instruction that emits one event made of register `a`. -/
def EmitRule (m : Mnemonic) (mk : Byte → Instr) (event : Byte → OutEvent) : Prop :=
  Selects m (fun a _ => mk a) ∧ OneRegisterCheck mk ∧
  ∀ (a : Byte) (r : Fin 8) (s : State), a.toNat = r.val → s.pc.toNat ≤ 253 →
    ∃ t, exec (mk a) s = .next t ∧ t.out = s.out ++ [event (s.reg r)] ∧ t.pc.toNat = s.pc.toNat + 2 ∧
      KeepsRegisters s t ∧ t.fl = s.fl ∧ KeepsMemory s t ∧ KeepsRunAndFault s t

/-- A jump through register `a` when `taken` holds of the flags, else an advance by 2. -/
def JumpRule (m : Mnemonic) (mk : Byte → Instr) (taken : Byte → Prop) : Prop :=
  Selects m (fun a _ => mk a) ∧ OneRegisterCheck mk ∧
  ∀ (a : Byte) (r : Fin 8) (s : State), a.toNat = r.val → s.pc.toNat ≤ 253 →
    ∃ t, exec (mk a) s = .next t ∧
      (taken s.fl → t.pc.toNat = (s.reg r).toNat) ∧ (¬ taken s.fl → t.pc.toNat = s.pc.toNat + 2) ∧
      KeepsRegisters s t ∧ t.fl = s.fl ∧ KeepsMemory s t ∧ t.out = s.out ∧ KeepsRunAndFault s t

/-- The value of the register an operand byte names (0 for a byte that names none). -/
def namedRegister (s : State) (a : Byte) : Byte := if h : a.toNat < 8 then s.reg ⟨a.toNat, h⟩ else 0

/-- The instructions whose operand `b` is a register index: two-operand ALU instructions (60_exceptions.md R202). -/
def usesRegisterB : List Mnemonic := [.add, .sub, .mul, .mod, .cmp, .and, .or, .xor, .shl, .shr]

/-- The first failing check of a step, in the fixed order of 60_exceptions.md R208. -/
def firstFault (map : OpcodeMap) (s : State) : Option (FaultCause × Nat) :=
  let pc := s.pc.toNat
  let ir := s.mem.read pc
  let a := s.mem.read (pc + 1)
  let b := s.mem.read (pc + 2)
  if pc > 255 then some (.outOfRangeAddress, pc)
  else if pc + 1 > 255 then some (.outOfRangeAddress, pc + 1)
  else if pc + 2 > 255 then some (.outOfRangeAddress, pc + 2)
  else if ir ∉ Mnemonic.all.map map then some (.illegalInstruction, ir.toNat)
  else if ir ≠ map .hlt ∧ ir ≠ map .ret ∧ a.toNat > 7 then some (.outOfRangeAddress, a.toNat)
  else if ir ∈ usesRegisterB.map map ∧ b.toNat > 7 then some (.outOfRangeAddress, b.toNat)
  else if ir = map .mod ∧ namedRegister s b = 0 then some (.divideByZero, pc)
  else none

/-- The program counter after a step that retires: the table of 10_state.md R28. -/
def nextPc (i : Instr) (s : State) : Nat :=
  match i with
  | .ldi _ _ | .add _ _ | .sub _ _ | .mul _ _ | .mod _ _ | .cmp _ _ | .and _ _ | .or _ _ | .xor _ _ | .shl _ _
  | .shr _ _ => s.pc.toNat + 3
  | .prn _ | .pra _ | .push _ | .pop _ | .inc _ | .dec _ | .not _ => s.pc.toNat + 2
  | .hlt => s.pc.toNat + 1
  | .jmp a => (namedRegister s a).toNat
  | .call a => if a = 7 then (s.sp.toNat + 255) % 256 else (namedRegister s a).toNat
  | .ret => (s.mem.read s.sp.toNat).toNat
  | .jeq a => if s.fl = 0x01 then (namedRegister s a).toNat else s.pc.toNat + 2
  | .jne a => if s.fl ≠ 0x01 then (namedRegister s a).toNat else s.pc.toNat + 2

/-- The instructions that read and write register 7 implicitly (10_state.md R25). -/
def usesStack : Instr → Bool
  | .push _ | .pop _ | .call _ | .ret => true
  | .hlt | .ldi _ _ | .prn _ | .pra _ | .add _ _ | .sub _ _ | .mul _ _ | .mod _ _ | .inc _ | .dec _ | .cmp _ _
  | .and _ _ | .or _ _ | .xor _ _ | .not _ | .shl _ _ | .shr _ _ | .jmp _ | .jeq _ | .jne _ => false

/-- The operand byte whose register an instruction writes: the "written" entries of the table of 10_state.md R22. -/
def writtenOperand : Instr → List Byte
  | .ldi a _ | .pop a | .add a _ | .sub a _ | .mul a _ | .mod a _ | .and a _ | .or a _ | .xor a _ | .shl a _
  | .shr a _ | .inc a | .dec a | .not a => [a]
  | .hlt | .prn _ | .pra _ | .push _ | .call _ | .ret | .jmp _ | .jeq _ | .jne _ | .cmp _ _ => []

/-- The addresses an instruction stores to (20_memory.md R54). -/
def storedAddresses (i : Instr) (s : State) : List Nat :=
  match i with
  | .push _ | .call _ => [s.decSp.sp.toNat]
  | .hlt | .ldi _ _ | .prn _ | .pra _ | .add _ _ | .sub _ _ | .mul _ _ | .mod _ _ | .inc _ | .dec _ | .cmp _ _
  | .and _ _ | .or _ _ | .xor _ _ | .not _ | .shl _ _ | .shr _ _ | .pop _ | .ret | .jmp _ | .jeq _ | .jne _ => []

/-- The events an instruction emits (10_state.md R35). -/
def emittedEvents (i : Instr) (s : State) : List OutEvent :=
  match i with
  | .prn a => [.num (namedRegister s a)]
  | .pra a => [.chr (namedRegister s a)]
  | .hlt | .ldi _ _ | .add _ _ | .sub _ _ | .mul _ _ | .mod _ _ | .inc _ | .dec _ | .cmp _ _ | .and _ _ | .or _ _
  | .xor _ _ | .not _ | .shl _ _ | .shr _ _ | .push _ | .pop _ | .call _ | .ret | .jmp _ | .jeq _ | .jne _ => []

/-- An outcome with the state in it changed. -/
def mapState (f : State → State) : Result → Result
  | .next t => .next (f t)
  | .fault (.raised c n t) => .fault (.raised c n (f t))
  | .fault .noStepHalted => .fault .noStepHalted
  | .fault .noStepFaulted => .fault .noStepFaulted
  | .refused r => .refused r

end Sys2Proof.Claims

open Sys2Proof.Claims

/-! ### Encoding -/

/-- 30_encoding.md R85: each row's byte, written out bit by bit, selects its instruction, whatever the operand bytes.
21 of the 24 values are the spec's default of OPCODE_MAP, not the source document's, and the model takes the default
(log 7). -/
def Obligations.OpcodeTableRowsDecode : Prop :=
  ∀ a b : Byte,
    decode [0b00000001, a, b] = .ok .hlt ∧ decode [0b10000010, a, b] = .ok (.ldi a b) ∧
    decode [0b01000111, a, b] = .ok (.prn a) ∧ decode [0b01001000, a, b] = .ok (.pra a) ∧
    decode [0b10100000, a, b] = .ok (.add a b) ∧ decode [0b10100001, a, b] = .ok (.sub a b) ∧
    decode [0b10100010, a, b] = .ok (.mul a b) ∧ decode [0b10100100, a, b] = .ok (.mod a b) ∧
    decode [0b01100101, a, b] = .ok (.inc a) ∧ decode [0b01100110, a, b] = .ok (.dec a) ∧
    decode [0b10100111, a, b] = .ok (.cmp a b) ∧ decode [0b10101000, a, b] = .ok (.and a b) ∧
    decode [0b10101010, a, b] = .ok (.or a b) ∧ decode [0b10101011, a, b] = .ok (.xor a b) ∧
    decode [0b01101001, a, b] = .ok (.not a) ∧ decode [0b10101100, a, b] = .ok (.shl a b) ∧
    decode [0b10101101, a, b] = .ok (.shr a b) ∧ decode [0b01000101, a, b] = .ok (.push a) ∧
    decode [0b01000110, a, b] = .ok (.pop a) ∧ decode [0b01010000, a, b] = .ok (.call a) ∧
    decode [0b00010001, a, b] = .ok .ret ∧ decode [0b01010100, a, b] = .ok (.jmp a) ∧
    decode [0b01010101, a, b] = .ok (.jeq a) ∧ decode [0b01010110, a, b] = .ok (.jne a)

/-- The default map meets every constraint that 30_encoding.md section 6 puts on an admissible map (log 7). -/
def Obligations.DefaultMapIsAdmissible : Prop := Config.opcodeMap.Admissible

/-- 30_encoding.md R87 (the spec's decision D5): a byte that is no instruction's value is rejected as an illegal
opcode, every other byte is decoded; 232 of the 256 values are illegal, 0x00 and those with bits 7:6 = 11 among them,
and a fetched one faults. -/
def Obligations.IllegalOpcodesAreTheOther232 : Prop :=
  ∀ map : OpcodeMap, map.Admissible →
    (∀ ir a b : Byte, decodeWith map [ir, a, b] = .error (.illegalInstruction ir) ↔ ∀ m, map m ≠ ir) ∧
    (∀ (m : Mnemonic) (a b : Byte), ∃ i, decodeWith map [map m, a, b] = .ok i) ∧
    (∀ m, map m ≠ 0x00) ∧ (∀ ir : Byte, opcodeCount ir = 3 → ∀ m, map m ≠ ir) ∧
    ((List.range 256).filter (fun n => (map.lookup (BitVec.ofNat 8 n)).isNone)).length = 232 ∧
    ∀ (s : State) (ir : Byte), s.run = .running → s.pc.toNat ≤ 253 → s.mem.read s.pc.toNat = ir →
      (∀ m, map m ≠ ir) → stepWith map s = faultOf s .illegalInstruction ir.toNat

/-- Decode and encode agree, for every admissible map and every instruction with any operand bytes (30_encoding.md,
sections 1 and 4): the opcode tells the length, and the lookahead bytes after the instruction do not matter. -/
def Obligations.DecodeOfEncodeIsTheInstruction : Prop :=
  ∀ map : OpcodeMap, map.Admissible → ∀ (i : Instr) (x y : Byte),
    decodeWith map (encodeWith map i ++ [x, y]) = .ok i ∧
    (encodeWith map i).length = opcodeLength (map i.mnemonic) ∧ (encodeWith map i).length ≤ 3

/-- The other direction (30_encoding.md, sections 1 and 4): what was decoded encodes to the fetched bytes, cut to the
length that the opcode byte tells. -/
def Obligations.EncodeOfDecodeIsTheFetchedBytes : Prop :=
  ∀ map : OpcodeMap, map.Admissible → ∀ (ir a b : Byte) (i : Instr),
    decodeWith map [ir, a, b] = .ok i → encodeWith map i = [ir, a, b].take (opcodeLength ir)

/-! ### The step -/

/-- A step is the execution of the instruction that the three bytes at `pc` decode to (40_sequencer.md, section 1), for
the default map and for any other; nothing is added around it. -/
def Obligations.StepRunsTheDecodedInstruction : Prop :=
  (∀ (s : State) (i : Instr), s.run = .running → s.pc.toNat ≤ 253 → decode (bytesAtPc s) = .ok i →
    step s = exec i s) ∧
  (∀ (map : OpcodeMap) (s : State) (i : Instr), s.run = .running → s.pc.toNat ≤ 253 →
    decodeWith map (bytesAtPc s) = .ok i → stepWith map s = exec i s) ∧
  (∀ s : State, step s = stepWith Config.opcodeMap s)

/-- 40_sequencer.md section 1: three reads in order; the first address above 255 faults (the spec's decision D2),
whatever byte is at `pc`, the lookahead's address as well (its decision D20). -/
def Obligations.FetchReadsThreeBytesOrFaults : Prop :=
  ∀ s : State,
    (s.pc.toNat ≤ 253 → fetch s = .ok (bytesAtPc s)) ∧
    (s.pc.toNat = 254 ∨ s.pc.toNat = 255 → fetch s = .error ⟨.outOfRangeAddress, 256⟩) ∧
    (256 ≤ s.pc.toNat → fetch s = .error ⟨.outOfRangeAddress, s.pc.toNat⟩) ∧
    ∀ map r, s.run = .running → fetch s = .error r → stepWith map s = faultOf s r.cause r.info

/-- 40_sequencer.md R118 (the spec's decision D5): an opcode byte outside the map faults, after a fetch that succeeded;
at 254 and 255 the fetch faults first. -/
def Obligations.IllegalOpcodeFaults : Prop :=
  ∀ (map : OpcodeMap) (s : State), s.run = .running → (∀ m, map m ≠ s.mem.read s.pc.toNat) →
    (s.pc.toNat ≤ 253 → stepWith map s = faultOf s .illegalInstruction (s.mem.read s.pc.toNat).toNat) ∧
    (s.pc.toNat = 254 ∨ s.pc.toNat = 255 → stepWith map s = faultOf s .outOfRangeAddress 256)

/-- No step exists in HALTED or FAULTED (40_sequencer.md, section 1); that the model answers a stuck outcome by name there
is its own choice (log 2). -/
def Obligations.NoStepOutsideRunning : Prop :=
  ∀ (map : OpcodeMap) (s : State), (s.run = .halted → stepWith map s = .fault .noStepHalted) ∧
    (s.run = .faulted → stepWith map s = .fault .noStepFaulted) ∧
    ∀ t, stepWith map s = .next t → s.run = .running

/-- 60_exceptions.md R209 (the spec's decision D13): a step that raises leaves the state before it, but for `run` and
the fault record. -/
def Obligations.FaultEntryIsPrecise : Prop :=
  ∀ (map : OpcodeMap) (s t : State) (c : FaultCause) (n : Nat), stepWith map s = .fault (.raised c n t) →
    s.run = .running ∧
    t = { mem := s.mem, regs := s.regs, fl := s.fl, pc := s.pc, run := .faulted, fault := some ⟨c, n⟩, out := s.out }

/-- 60_exceptions.md R208 (its items 5 to 7 the spec's decision D14): a step raises exactly the first failing check in
the fixed order, and retires when none fails. -/
def Obligations.StepRaisesTheFirstFailingCheck : Prop :=
  ∀ map : OpcodeMap, map.Admissible → ∀ s : State, s.run = .running →
    match firstFault map s with
    | some (c, n) => stepWith map s = faultOf s c n
    | none => ∃ t, stepWith map s = .next t

/-- From a state with `pc` at most 256 the faults are those of the list of 60_exceptions.md section 1, with the infos
given there; UnsupportedOperation never occurs and no step refuses. -/
def Obligations.OnlyTheListedFaultsOccur : Prop :=
  ∀ map : OpcodeMap, map.Admissible → ∀ s : State, s.run = .running → s.pc.toNat ≤ 256 →
    (∀ r, stepWith map s ≠ .refused r) ∧
    ∀ f, stepWith map s = .fault f → ∃ c n, f = .raised c n (s.faultedWith ⟨c, n⟩) ∧
      ((c = .outOfRangeAddress ∧ n = 256 ∧ 254 ≤ s.pc.toNat) ∨
       (c = .outOfRangeAddress ∧ 8 ≤ n ∧ n ≤ 255 ∧ s.pc.toNat ≤ 253) ∨
       (c = .illegalInstruction ∧ n = (s.mem.read s.pc.toNat).toNat ∧ s.pc.toNat ≤ 253) ∨
       (c = .divideByZero ∧ n = s.pc.toNat ∧ s.mem.read s.pc.toNat = map .mod))

/-- 60_exceptions.md section 1 and 42_alu.md sections 1 and 2: each handler checks exactly its register operands, `a`
before `b` (the spec's decision D14), and raises for the first byte of 8 or more; with all of them in range MOD raises
`DivideByZero(pc)` for a zero divisor (its decision D10), and everything else retires. -/
def Obligations.HandlersCheckTheirRegisterOperands : Prop :=
  ∀ (i : Instr) (s : State),
    match i.registerOperands.find? (fun x => decide (7 < x.toNat)) with
    | some x => exec i s = faultOf s .outOfRangeAddress x.toNat
    | none =>
      (∀ a b, i = .mod a b → namedRegister s b = 0 → exec i s = faultOf s .divideByZero s.pc.toNat) ∧
      ((∀ a b, i = .mod a b → namedRegister s b ≠ 0) → ∃ t, exec i s = .next t)

/-! ### The instructions -/

/-- 40_sequencer.md R117. -/
def Obligations.HltAdvancesThenHalts : Prop :=
  Selects .hlt (fun _ _ => .hlt) ∧ (∀ x y : Byte, decode [0x01, x, y] = .ok .hlt) ∧
  ∀ s : State, s.pc.toNat ≤ 253 → ∃ t, exec .hlt s = .next t ∧ t.pc.toNat = s.pc.toNat + 1 ∧ t.run = .halted ∧
    KeepsRegisters s t ∧ t.fl = s.fl ∧ KeepsMemory s t ∧ t.out = s.out ∧ t.fault = s.fault

/-- 41_data_move_and_output.md R130: any byte is an immediate. -/
def Obligations.LdiLoadsTheImmediateByte : Prop :=
  Selects .ldi .ldi ∧ (∀ a imm : Byte, decode [0x82, a, imm] = .ok (.ldi a imm)) ∧
  (∀ (a imm : Byte) (s : State), 7 < a.toNat → exec (.ldi a imm) s = faultOf s .outOfRangeAddress a.toNat) ∧
  ∀ (a imm : Byte) (d : Fin 8) (s : State), a.toNat = d.val → s.pc.toNat ≤ 253 →
    ∃ t, exec (.ldi a imm) s = .next t ∧ t.reg d = imm ∧ OnlyRegisterWritten d 3 s t

/-- 41_data_move_and_output.md R131 and R132: one event, for any byte; the faulting form emits nothing. -/
def Obligations.PrintsEmitOneEvent : Prop :=
  EmitRule .prn .prn .num ∧ (∀ a x : Byte, decode [0x47, a, x] = .ok (.prn a)) ∧ EmitRule .pra .pra .chr

/-- 42_alu.md R142 and R144: the exact result modulo 256; no flag. -/
def Obligations.AddAndMulWrapModulo256 : Prop :=
  TwoRegisterRule .add .add (fun x y z => z.toNat = (x.toNat + y.toNat) % 256) ∧
  TwoRegisterRule .mul .mul (fun x y z => z.toNat = x.toNat * y.toNat % 256)

/-- SUB and XOR, which the spec supplies from general knowledge ("SUB is not in the document at all"; decisions D7 and
D9): the difference modulo 256, and the exclusive or bit by bit (42_alu.md, sections 2 and 5). -/
def Obligations.SubAndXorAsSupplied : Prop :=
  TwoRegisterRule .sub .sub (fun x y z => (z.toNat : Int) = ((x.toNat : Int) - y.toNat) % 256) ∧
  TwoRegisterRule .xor .xor (fun x y z => ∀ k < 8, z.getLsbD k = (x.getLsbD k != y.getLsbD k))

/-- MOD, which the spec supplies from general knowledge (decision D10): the unsigned remainder, or `DivideByZero(pc)`
after both register checks (42_alu.md, section 2). -/
def Obligations.ModIsTheUnsignedRemainder : Prop :=
  Selects .mod .mod ∧ TwoRegisterChecks .mod ∧
  (∀ (a b : Byte) (d r : Fin 8) (s : State), a.toNat = d.val → b.toNat = r.val → s.reg r = 0 →
    exec (.mod a b) s = faultOf s .divideByZero s.pc.toNat) ∧
  ∀ (a b : Byte) (d r : Fin 8) (s : State), a.toNat = d.val → b.toNat = r.val → s.reg r ≠ 0 → s.pc.toNat ≤ 253 →
    ∃ t, exec (.mod a b) s = .next t ∧ (t.reg d).toNat < (s.reg r).toNat ∧
      (∃ q, (s.reg d).toNat = q * (s.reg r).toNat + (t.reg d).toNat) ∧ OnlyRegisterWritten d 3 s t

/-- 42_alu.md R146 and R147. -/
def Obligations.IncAndDecWrap : Prop :=
  OneRegisterRule .inc .inc (fun x z => z.toNat = (x.toNat + 1) % 256) ∧
  OneRegisterRule .dec .dec (fun x z => (z.toNat : Int) = ((x.toNat : Int) - 1) % 256)

/-- 42_alu.md section 4: the whole byte `fl` is replaced, by unsigned comparison (the spec's decision D11); no register is
written. -/
def Obligations.CmpReplacesTheFlags : Prop :=
  Selects .cmp .cmp ∧ TwoRegisterChecks .cmp ∧
  ∀ (a b : Byte) (p q : Fin 8) (s : State), a.toNat = p.val → b.toNat = q.val → s.pc.toNat ≤ 253 →
    ∃ t, exec (.cmp a b) s = .next t ∧
      ((s.reg p).toNat = (s.reg q).toNat → t.fl = 0b00000001) ∧
      ((s.reg p).toNat > (s.reg q).toNat → t.fl = 0b00000010) ∧
      ((s.reg p).toNat < (s.reg q).toNat → t.fl = 0b00000100) ∧
      KeepsRegisters s t ∧ t.pc.toNat = s.pc.toNat + 3 ∧ KeepsMemory s t ∧ t.out = s.out ∧ KeepsRunAndFault s t

/-- 42_alu.md R149, R150 and R152, bit by bit. -/
def Obligations.AndOrNotActOnEachBit : Prop :=
  TwoRegisterRule .and .and (fun x y z => ∀ k < 8, z.getLsbD k = (x.getLsbD k && y.getLsbD k)) ∧
  TwoRegisterRule .or .or (fun x y z => ∀ k < 8, z.getLsbD k = (x.getLsbD k || y.getLsbD k)) ∧
  OneRegisterRule .not .not (fun x z => z.toNat = 255 - x.toNat ∧ ∀ k < 8, z.getLsbD k = !x.getLsbD k)

/-- SHL and SHR, which the spec supplies from general knowledge (decision D9): the count is the whole byte, 8 or more
gives 0, the right shift is logical (42_alu.md, section 6). -/
def Obligations.ShiftsTakeTheWholeByteAsCount : Prop :=
  TwoRegisterRule .shl .shl (fun x y z => z.toNat = x.toNat * 2 ^ y.toNat % 256 ∧ (8 ≤ y.toNat → z = 0)) ∧
  TwoRegisterRule .shr .shr (fun x y z => z.toNat = x.toNat / 2 ^ y.toNat ∧ (8 ≤ y.toNat → z = 0))

/-- 43_stack.md R171: decrement, then store the register as read after the decrement. Memory is in its canonical form
(StepKeepsTheInvariant). -/
def Obligations.PushDecrementsThenStores : Prop :=
  Selects .push (fun a _ => .push a) ∧ OneRegisterCheck .push ∧
  ∀ (a : Byte) (r : Fin 8) (s : State), a.toNat = r.val → s.pc.toNat ≤ 253 → s.mem.wf = true →
    ∃ t, exec (.push a) s = .next t ∧ t.sp.toNat = (s.sp.toNat + 255) % 256 ∧
      (r ≠ 7 → t.mem.read s.decSp.sp.toNat = s.reg r) ∧ (r = 7 → t.mem.read s.decSp.sp.toNat = t.sp) ∧
      s.decSp.sp = t.sp ∧ KeepsMemoryBut s.decSp.sp.toNat s t ∧ KeepsRegistersBut 7 s t ∧
      t.pc.toNat = s.pc.toNat + 2 ∧ t.fl = s.fl ∧ t.out = s.out ∧ KeepsRunAndFault s t

/-- 43_stack.md R172: the register write, then the increment, which for register 7 acts on the byte loaded. -/
def Obligations.PopLoadsThenIncrements : Prop :=
  Selects .pop (fun a _ => .pop a) ∧ OneRegisterCheck .pop ∧
  ∀ (a : Byte) (d : Fin 8) (s : State), a.toNat = d.val → s.pc.toNat ≤ 253 →
    ∃ t, exec (.pop a) s = .next t ∧
      (d ≠ 7 → t.reg d = s.mem.read s.sp.toNat ∧ t.sp.toNat = (s.sp.toNat + 1) % 256) ∧
      (d = 7 → t.sp.toNat = ((s.mem.read s.sp.toNat).toNat + 1) % 256) ∧
      (∀ q : Fin 8, q ≠ d → q ≠ 7 → t.reg q = s.reg q) ∧ KeepsMemory s t ∧
      t.pc.toNat = s.pc.toNat + 2 ∧ t.fl = s.fl ∧ t.out = s.out ∧ KeepsRunAndFault s t

/-- 44_control_transfer.md R181: decrement, store `pc + 2`, then transfer to the register as read after the
decrement. -/
def Obligations.CallStoresTheReturnAddress : Prop :=
  Selects .call (fun a _ => .call a) ∧ OneRegisterCheck .call ∧
  ∀ (a : Byte) (r : Fin 8) (s : State), a.toNat = r.val → s.pc.toNat ≤ 253 → s.mem.wf = true →
    ∃ t, exec (.call a) s = .next t ∧ t.sp.toNat = (s.sp.toNat + 255) % 256 ∧ s.decSp.sp = t.sp ∧
      (t.mem.read s.decSp.sp.toNat).toNat = s.pc.toNat + 2 ∧ KeepsMemoryBut s.decSp.sp.toNat s t ∧
      (r ≠ 7 → t.pc.toNat = (s.reg r).toNat) ∧ (r = 7 → t.pc.toNat = t.sp.toNat) ∧
      KeepsRegistersBut 7 s t ∧ t.fl = s.fl ∧ t.out = s.out ∧ KeepsRunAndFault s t

/-- 44_control_transfer.md R182. -/
def Obligations.RetTransfersToTheTopOfStack : Prop :=
  Selects .ret (fun _ _ => .ret) ∧
  ∀ s : State, ∃ t, exec .ret s = .next t ∧ t.pc.toNat = (s.mem.read s.sp.toNat).toNat ∧
    t.sp.toNat = (s.sp.toNat + 1) % 256 ∧ KeepsRegistersBut 7 s t ∧ KeepsMemory s t ∧ t.fl = s.fl ∧
    t.out = s.out ∧ KeepsRunAndFault s t

/-- 44_control_transfer.md R183. -/
def Obligations.JmpGoesToTheRegister : Prop := JumpRule .jmp .jmp (fun _ => True)

/-- JEQ and JNE of 44_control_transfer.md: whole-byte tests (the spec's decision D12), one the negation of the other; the
register is checked taken or not. -/
def Obligations.ConditionalJumpsTestTheWholeByte : Prop :=
  JumpRule .jeq .jeq (fun fl => fl = 0x01) ∧ JumpRule .jne .jne (fun fl => fl ≠ 0x01)

/-- The results for the same register twice (42_alu.md, section 1). -/
def Obligations.SameRegisterTwice : Prop :=
  ∀ (a : Byte) (d : Fin 8) (s t : State), a.toNat = d.val →
    (exec (.add a a) s = .next t → (t.reg d).toNat = 2 * (s.reg d).toNat % 256) ∧
    (exec (.sub a a) s = .next t → t.reg d = 0) ∧
    (exec (.mul a a) s = .next t → (t.reg d).toNat = (s.reg d).toNat * (s.reg d).toNat % 256) ∧
    (exec (.mod a a) s = .next t → s.reg d ≠ 0 ∧ t.reg d = 0) ∧
    (exec (.and a a) s = .next t → t.reg d = s.reg d) ∧ (exec (.or a a) s = .next t → t.reg d = s.reg d) ∧
    (exec (.xor a a) s = .next t → t.reg d = 0) ∧ (exec (.cmp a a) s = .next t → t.fl = 0x01) ∧
    (exec (.shl a a) s = .next t → (t.reg d).toNat = (s.reg d).toNat * 2 ^ (s.reg d).toNat % 256) ∧
    (exec (.shr a a) s = .next t → (t.reg d).toNat = (s.reg d).toNat / 2 ^ (s.reg d).toNat)

/-! ### Rules over all instructions -/

/-- 10_state.md R31: CMP is the only writer of `fl`; JEQ and JNE are its only readers, so that any other instruction
does the same whatever `fl` holds. A CMP that retires replaces `fl` and does not depend on it; one that faults leaves it
and does the same whatever it holds. -/
def Obligations.FlagsWrittenByCmpReadByJumps : Prop :=
  (∀ (i : Instr) (s t : State), exec i s = .next t → t.fl ≠ s.fl → ∃ a b, i = .cmp a b) ∧
  (∀ (i : Instr) (s : State) (v : Byte), (∀ a, i ≠ .jeq a) → (∀ a, i ≠ .jne a) → (∀ a b, i ≠ .cmp a b) →
    exec i { s with fl := v } = mapState (fun t => { t with fl := v }) (exec i s)) ∧
  (∀ (a b : Byte) (s t : State) (v : Byte), exec (.cmp a b) s = .next t →
    exec (.cmp a b) { s with fl := v } = .next t) ∧
  (∀ (a b : Byte) (s : State) (f : Fault) (v : Byte), exec (.cmp a b) s = .fault f →
    exec (.cmp a b) { s with fl := v } = mapState (fun t => { t with fl := v }) (exec (.cmp a b) s))

/-- Of the instructions only PUSH and CALL write memory, one byte, below the old stack pointer (20_memory.md,
section 2). -/
def Obligations.OnlyPushAndCallWriteMemory : Prop :=
  ∀ (i : Instr) (s t : State), exec i s = .next t → ∀ x : Nat, x ∉ storedAddresses i s →
    t.mem.read x = s.mem.read x

/-- 10_state.md R35: PRN and PRA append one event and nothing else changes `out`; no instruction reads it. -/
def Obligations.OutputGrowsByPrintsOnly : Prop :=
  State.reset.out = [] ∧
  (∀ (i : Instr) (s t : State), exec i s = .next t → t.out = s.out ++ emittedEvents i s) ∧
  (∀ (i : Instr) (s : State) (earlier : List OutEvent),
    exec i { s with out := earlier ++ s.out } = mapState (fun t => { t with out := earlier ++ t.out }) (exec i s))

/-- An instruction leaves every register but the one its table entry writes, and but register 7 for the four stack
instructions (10_state.md, section 2). -/
def Obligations.RegistersWrittenAreThoseOfTheTable : Prop :=
  ∀ (i : Instr) (s t : State), exec i s = .next t → ∀ q : Fin 8,
    (∀ a ∈ writtenOperand i, a.toNat ≠ q.val) → (usesStack i = true → q ≠ 7) → t.reg q = s.reg q

/-- 10_state.md section 2: a register that an instruction neither names nor uses implicitly has no effect: its value
changes nothing, in fetch or in the handler. The spec says this of registers 5 and 6, which reset to 0; for the others it
is derived from the handlers. -/
def Obligations.UnnamedRegistersHaveNoEffect : Prop :=
  State.reset.reg 5 = 0 ∧ State.reset.reg 6 = 0 ∧
  ∀ (d : Fin 8) (v : Byte) (s : State),
    fetch (s.setReg d v) = fetch s ∧
    ∀ i : Instr, (∀ a ∈ i.registerOperands, a.toNat ≠ d.val) → (d = 7 → usesStack i = false) →
      exec i (s.setReg d v) = mapState (fun t => t.setReg d v) (exec i s)

/-- 10_state.md R28: the program counter after each instruction. The sums are exact: a step never wraps `pc`. -/
def Obligations.NextPcIsThatOfTheTable : Prop :=
  ∀ (map : OpcodeMap) (s t : State) (i : Instr), decodeWith map (bytesAtPc s) = .ok i → stepWith map s = .next t →
    t.pc.toNat = nextPc i s ∧ (i = .hlt → t.run = .halted)

/-- 10_state.md R33 (FAULTED is the spec's decision D13): the transitions of the run-state; 0x01 is HLT under every
admissible map. -/
def Obligations.RunStateTransitions : Prop :=
  State.reset.run = .running ∧
  ∀ map : OpcodeMap, map.Admissible →
    (∀ s t : State, stepWith map s = .next t → s.run = .running ∧
      (s.mem.read s.pc.toNat ≠ 0x01 → t.run = .running) ∧ (s.mem.read s.pc.toNat = 0x01 → t.run = .halted)) ∧
    (∀ (s t : State) (c : FaultCause) (n : Nat), stepWith map s = .fault (.raised c n t) →
      s.run = .running ∧ t.run = .faulted) ∧
    (∀ s : State, s.run ≠ .running → ∀ t, stepWith map s ≠ .next t)

/-! ### Reset and the invariant -/

/-- 70_reset_and_hazards.md section 1: the state after reset. `pc` = 0, the empty fault record and the empty output are
the spec's decisions D13, D15 and D16. -/
def Obligations.ResetGivesTheTableValues : Prop :=
  (∀ x : Nat, State.reset.mem.read x = 0x00) ∧ (∀ q : Fin 8, q ≠ 7 → State.reset.reg q = 0x00) ∧
  State.reset.reg 7 = 0xF4 ∧ State.reset.fl = 0x00 ∧ State.reset.pc = 0 ∧ State.reset.run = .running ∧
  State.reset.fault = none ∧ State.reset.out = []

/-- The invariant holds after reset. -/
def Obligations.ResetMeetsTheInvariant : Prop := State.reset.Inv

/-- The invariant (canonical memory, `pc` at most 256, one of the four flag values, a fault record exactly in FAULTED)
is kept by every step, from every state (10_state.md, sections 3 to 5). -/
def Obligations.StepKeepsTheInvariant : Prop := ∀ s t : State, s.Inv → step s = .next t → t.Inv

/-- The state that a fault leaves meets the invariant too. -/
def Obligations.FaultKeepsTheInvariant : Prop :=
  ∀ (s t : State) (c : FaultCause) (n : Nat), s.Inv → step s = .fault (.raised c n t) → t.Inv

/-! ### Laws -/

/-- 43_stack.md R173: PUSH r, then POP r, from a state whose push does not hit the bytes of either instruction. -/
def Obligations.PushThenPopRestores : Prop :=
  ∀ map : OpcodeMap, map.Admissible → ∀ (s : State) (a : Byte) (r : Fin 8), a.toNat = r.val →
    s.mem.wf = true → s.run = .running → s.pc.toNat ≤ 251 →
    s.mem.read s.pc.toNat = map .push → s.mem.read (s.pc.toNat + 1) = a →
    s.mem.read (s.pc.toNat + 2) = map .pop → s.mem.read (s.pc.toNat + 3) = a →
    s.decSp.sp.toNat ≠ s.pc.toNat + 2 → s.decSp.sp.toNat ≠ s.pc.toNat + 3 →
    ∃ t1 t, stepWith map s = .next t1 ∧ stepWith map t1 = .next t ∧ t.reg r = s.reg r ∧ t.sp = s.sp ∧
      (r ≠ 7 → t.mem.read s.decSp.sp.toNat = s.reg r) ∧ (r = 7 → t.mem.read s.decSp.sp.toNat = s.decSp.sp)

/-- 44_control_transfer.md R187: a CALL that retires, then a RET that retires with the stack pointer and the stored byte
as CALL left them. -/
def Obligations.CallThenRetReturns : Prop :=
  ∀ map : OpcodeMap, map.Admissible → ∀ s s1 s2 t : State, s.mem.wf = true →
    s.mem.read s.pc.toNat = map .call → stepWith map s = .next s1 →
    s2.mem.read s2.pc.toNat = map .ret → stepWith map s2 = .next t →
    s2.sp = s.decSp.sp → s2.mem.read s.decSp.sp.toNat = s1.mem.read s.decSp.sp.toNat →
    t.pc.toNat = s.pc.toNat + 2 ∧ t.sp = s.sp

/-- 20_memory.md section 2: a write changes the one cell, a read gives the byte last written, and an address above 255
raises rather than wraps (the spec's decision D2). -/
def Obligations.MemoryAccessPrimitives : Prop :=
  ∀ (s : State) (addr : Nat) (v : Byte),
    (255 < addr → memRead s addr = .error ⟨.outOfRangeAddress, addr⟩ ∧
      memWrite s addr v = .error ⟨.outOfRangeAddress, addr⟩) ∧
    (addr ≤ 255 → memRead s addr = .ok (s.mem.read addr) ∧
      ∃ t, memWrite s addr v = .ok t ∧ (s.mem.wf = true → t.mem.read addr = v) ∧ KeepsMemoryBut addr s t ∧
        t.regs = s.regs ∧ t.fl = s.fl ∧ t.pc = s.pc ∧ t.out = s.out ∧ KeepsRunAndFault s t)

/-- The canonical form is one: memories in it that read alike are equal, and so equal as data (20_memory.md,
section 1; the form is the model's). -/
def Obligations.CanonicalMemoriesThatReadAlikeAreEqual : Prop :=
  ∀ m n : Memory, m.wf = true → n.wf = true → (∀ x, m.read x = n.read x) → m = n

/-! ### The host's side -/

/-- The start state is reset with the image in memory; an image of 257 or more bytes is refused
(70_reset_and_hazards.md, section 2). -/
def Obligations.LoadedImageGivesTheStartState : Prop :=
  ∀ image : List Byte,
    (image.length ≤ 256 → ∃ s, loadImage image = .ok s ∧
      (∀ (k : Nat) (h : k < image.length), s.mem.read k = image[k]) ∧
      (∀ k, image.length ≤ k → s.mem.read k = 0x00) ∧ s.mem.wf = true ∧
      s.regs = State.reset.regs ∧ s.fl = 0 ∧ s.pc = 0 ∧ s.run = .running ∧ s.fault = none ∧ s.out = []) ∧
    (257 ≤ image.length → loadImage image = .error .programTooLarge)

/-- The loader's text (70_reset_and_hazards.md section 2, 30_encoding.md section 5). A token that is not binary digits, or
is above 255 (the spec's decision D18), is refused; any other nonempty token is its value, the first digit most
significant. A line's comment and the blanks around its token count for nothing; a blank line is no address; the other
lines give their bytes in order, and one refused token refuses the text. Which characters are blanks, and that anything
but binary digits is refused, is the model's choice (log 5). -/
def Obligations.LoaderTokensAreBytes : Prop :=
  (∀ token : List Char, (∃ c ∈ token, c ≠ '0' ∧ c ≠ '1') → parseToken token = .error .programLoadError) ∧
  (∀ token : List Char, 255 < binaryValue token → parseToken token = .error .programLoadError) ∧
  (∀ token : List Char, token ≠ [] → (∀ c ∈ token, c = '0' ∨ c = '1') → binaryValue token ≤ 255 →
    parseToken token = .ok (BitVec.ofNat 8 (binaryValue token))) ∧
  binaryValue [] = 0 ∧
  (∀ digits : List Char, binaryValue (digits ++ ['0']) = 2 * binaryValue digits ∧
    binaryValue (digits ++ ['1']) = 2 * binaryValue digits + 1) ∧
  (∀ v : Byte, parseToken ((List.range 8).map (fun k => if v.getMsbD k then '1' else '0')) = .ok v) ∧
  (∀ token comment : List Char, '#' ∉ token → lineToken (token ++ '#' :: comment) = lineToken token) ∧
  (∀ before token after : List Char, (∀ c ∈ before ++ after, c.isWhitespace = true) → '#' ∉ token →
    (∀ c, token.head? = some c → c.isWhitespace = false) →
    (∀ c, token.getLast? = some c → c.isWhitespace = false) → lineToken (before ++ token ++ after) = token) ∧
  parseProgram [] = .ok [] ∧
  (∀ (earlier : List (List Char)) (line : List Char) (rest : List (List Char)), lineToken line = [] →
    parseProgram (earlier ++ line :: rest) = parseProgram (earlier ++ rest)) ∧
  (∀ (earlier later : List (List Char)) (image1 image2 : List Byte), parseProgram earlier = .ok image1 →
    parseProgram later = .ok image2 → parseProgram (earlier ++ later) = .ok (image1 ++ image2)) ∧
  (∀ (line : List Char) (v : Byte), lineToken line ≠ [] → parseToken (lineToken line) = .ok v →
    parseProgram [line] = .ok [v]) ∧
  (∀ (lines : List (List Char)) (line : List Char), line ∈ lines → lineToken line ≠ [] →
    parseToken (lineToken line) = .error .programLoadError → parseProgram lines = .error .programLoadError) ∧
  (∀ (lines : List (List Char)) (image : List Byte), parseProgram lines = .ok image →
    loadProgram lines = loadImage image)

/-- The next step runs the instruction that `withFetchWord` placed (10_state.md, section 8, the load interface;
log 6). -/
def Obligations.PlacedWordIsRunNext : Prop :=
  ∀ (s : State) (nbits w : Nat), s.run = .running → s.pc.toNat ≤ 253 → s.mem.wf = true →
    match decodeTableWord nbits w with
    | some i => step (s.withFetchWord nbits w) = exec i (s.withFetchWord nbits w)
    | none => step (s.withFetchWord nbits w) =
        faultOf (s.withFetchWord nbits w) .illegalInstruction (w % 2 ^ nbits % 256)

/-- A number is its decimal digits and a line feed, a character is its glyph alone, and a stream is the concatenation in
order (41_data_move_and_output.md, rendering); that a glyph is one character of Lean is the model's choice (log 4). -/
def Obligations.RenderingOfTheOutput : Prop :=
  (∀ v : Byte, (OutEvent.num v).render = (toString v.toNat).toList ++ ['\n']) ∧
  (∀ v : Byte, (OutEvent.chr v).render = [Config.charset v]) ∧
  renderOutput [] = [] ∧
  (∀ (e : OutEvent) (rest : List OutEvent), renderOutput (e :: rest) = e.render ++ renderOutput rest)
end

