-- ==== Sys2Proof/Laws/State.lean ====
section
/-!
SUPPORT. One lemma per field per update, so that no later proof unfolds a record update; reads of a register after a
write.
-/

namespace Sys2Proof.Machine

variable (s : State) (i j : Fin 8) (v : Byte) (n : Nat) (e : OutEvent) (r : FaultRecord)

/-! ### setReg -/

@[simp] theorem State.setReg_mem : (s.setReg i v).mem = s.mem := rfl
@[simp] theorem State.setReg_fl : (s.setReg i v).fl = s.fl := rfl
@[simp] theorem State.setReg_pc : (s.setReg i v).pc = s.pc := rfl
@[simp] theorem State.setReg_run : (s.setReg i v).run = s.run := rfl
@[simp] theorem State.setReg_fault : (s.setReg i v).fault = s.fault := rfl
@[simp] theorem State.setReg_out : (s.setReg i v).out = s.out := rfl

@[simp] theorem State.reg_setReg_self : (s.setReg i v).reg i = v := by
  simp [State.reg, State.setReg]

theorem State.reg_setReg_of_ne (h : j ≠ i) : (s.setReg i v).reg j = s.reg j := by
  have h' : i.val ≠ j.val := fun e => h (Fin.ext e.symm)
  simp [State.reg, State.setReg, h']

theorem State.reg_setReg : (s.setReg i v).reg j = if j = i then v else s.reg j := by
  by_cases h : j = i
  · subst h; simp
  · simp [h, State.reg_setReg_of_ne]

/-- Two writes to different registers commute. -/
theorem State.setReg_comm (w : Byte) (h : i ≠ j) : (s.setReg i v).setReg j w = (s.setReg j w).setReg i v := by
  have h' : i.val ≠ j.val := fun e => h (Fin.ext e)
  simp only [State.setReg]
  rw [Vector.set_comm _ _ h']

/-! ### advance, jumpTo, emit -/

@[simp] theorem State.advance_mem : (s.advance n).mem = s.mem := rfl
@[simp] theorem State.advance_reg : (s.advance n).reg i = s.reg i := rfl
@[simp] theorem State.advance_sp : (s.advance n).sp = s.sp := rfl
@[simp] theorem State.advance_fl : (s.advance n).fl = s.fl := rfl
@[simp] theorem State.advance_pc : (s.advance n).pc = s.pc + BitVec.ofNat 9 (n + 1) := rfl
@[simp] theorem State.advance_run : (s.advance n).run = s.run := rfl
@[simp] theorem State.advance_fault : (s.advance n).fault = s.fault := rfl
@[simp] theorem State.advance_out : (s.advance n).out = s.out := rfl

@[simp] theorem State.jumpTo_mem : (s.jumpTo v).mem = s.mem := rfl
@[simp] theorem State.jumpTo_reg : (s.jumpTo v).reg i = s.reg i := rfl
@[simp] theorem State.jumpTo_sp : (s.jumpTo v).sp = s.sp := rfl
@[simp] theorem State.jumpTo_fl : (s.jumpTo v).fl = s.fl := rfl
@[simp] theorem State.jumpTo_pc : (s.jumpTo v).pc = zext9 v := rfl
@[simp] theorem State.jumpTo_run : (s.jumpTo v).run = s.run := rfl
@[simp] theorem State.jumpTo_fault : (s.jumpTo v).fault = s.fault := rfl
@[simp] theorem State.jumpTo_out : (s.jumpTo v).out = s.out := rfl

@[simp] theorem State.emit_mem : (s.emit e).mem = s.mem := rfl
@[simp] theorem State.emit_reg : (s.emit e).reg i = s.reg i := rfl
@[simp] theorem State.emit_fl : (s.emit e).fl = s.fl := rfl
@[simp] theorem State.emit_pc : (s.emit e).pc = s.pc := rfl
@[simp] theorem State.emit_run : (s.emit e).run = s.run := rfl
@[simp] theorem State.emit_fault : (s.emit e).fault = s.fault := rfl
@[simp] theorem State.emit_out : (s.emit e).out = s.out ++ [e] := rfl

/-! ### the stack pointer -/

@[simp] theorem State.reg_spIndex : s.reg 7 = s.sp := rfl

@[simp] theorem State.decSp_mem : s.decSp.mem = s.mem := rfl
@[simp] theorem State.decSp_fl : s.decSp.fl = s.fl := rfl
@[simp] theorem State.decSp_pc : s.decSp.pc = s.pc := rfl
@[simp] theorem State.decSp_run : s.decSp.run = s.run := rfl
@[simp] theorem State.decSp_fault : s.decSp.fault = s.fault := rfl
@[simp] theorem State.decSp_out : s.decSp.out = s.out := rfl

@[simp] theorem State.incSp_mem : s.incSp.mem = s.mem := rfl
@[simp] theorem State.incSp_fl : s.incSp.fl = s.fl := rfl
@[simp] theorem State.incSp_pc : s.incSp.pc = s.pc := rfl
@[simp] theorem State.incSp_run : s.incSp.run = s.run := rfl
@[simp] theorem State.incSp_fault : s.incSp.fault = s.fault := rfl
@[simp] theorem State.incSp_out : s.incSp.out = s.out := rfl

/-- The wrap of the decrement (10_state.md R25). -/
theorem State.decSp_sp : s.decSp.sp.toNat = (s.sp.toNat + 255) % 256 := by
  simp only [State.decSp, State.sp, State.reg_setReg_self, wrap8, BitVec.toNat_ofInt]
  omega

/-- The wrap of the increment (10_state.md R25). -/
theorem State.incSp_sp : s.incSp.sp.toNat = (s.sp.toNat + 1) % 256 := by
  simp only [State.incSp, State.sp, State.reg_setReg_self, wrap8, BitVec.toNat_ofInt]
  omega

theorem State.decSp_reg_of_ne (h : j ≠ 7) : s.decSp.reg j = s.reg j := State.reg_setReg_of_ne _ _ _ _ h

theorem State.incSp_reg_of_ne (h : j ≠ 7) : s.incSp.reg j = s.reg j := State.reg_setReg_of_ne _ _ _ _ h

/-! ### faults -/

@[simp] theorem State.faultedWith_mem : (s.faultedWith r).mem = s.mem := rfl
@[simp] theorem State.faultedWith_reg : (s.faultedWith r).reg i = s.reg i := rfl
@[simp] theorem State.faultedWith_fl : (s.faultedWith r).fl = s.fl := rfl
@[simp] theorem State.faultedWith_pc : (s.faultedWith r).pc = s.pc := rfl
@[simp] theorem State.faultedWith_run : (s.faultedWith r).run = .faulted := rfl
@[simp] theorem State.faultedWith_fault : (s.faultedWith r).fault = some r := rfl
@[simp] theorem State.faultedWith_out : (s.faultedWith r).out = s.out := rfl

end Sys2Proof.Machine
end

