-- ==== Sys2Proof/Laws/Memory.lean ====
section
/-!
SUPPORT. Laws of the byte memory: reads after a write, that every write keeps the canonical form, and that canonical
memories with equal reads are equal.
-/

namespace Sys2Proof.Machine

theorem Memory.wfFrom_cons (lo a : Nat) (v : Byte) (m : Memory) :
    Memory.wfFrom lo ((a, v) :: m) = true ↔
      lo ≤ a ∧ a < 256 ∧ v ≠ 0 ∧ Memory.wfFrom (a + 1) m = true := by
  simp [Memory.wfFrom, and_assoc]

theorem Memory.wfFrom_mono {lo lo' : Nat} {m : Memory} (h : Memory.wfFrom lo m = true) (hle : lo' ≤ lo) :
    Memory.wfFrom lo' m = true := by
  cases m with
  | nil => rfl
  | cons c m =>
    obtain ⟨a, v⟩ := c
    rw [Memory.wfFrom_cons] at h ⊢
    exact ⟨hle.trans h.1, h.2⟩

/-- Below its lowest listed address a canonical memory reads as nothing written. -/
theorem Memory.read_below {lo a : Nat} {m : Memory} (h : Memory.wfFrom lo m = true) (ha : a < lo) :
    m.read a = 0 := by
  induction m generalizing lo with
  | nil => rfl
  | cons c m ih =>
    obtain ⟨b, w⟩ := c
    rw [Memory.wfFrom_cons] at h
    have : b ≠ a := by omega
    simp [Memory.read, this, ih h.2.2.2 (by omega)]

theorem Memory.read_consCell_self {a : Nat} {v : Byte} {m : Memory} (h : Memory.wfFrom (a + 1) m = true) :
    (Memory.consCell a v m).read a = v := by
  unfold Memory.consCell
  split
  · next hv => rw [Memory.read_below h (by omega), hv]
  · simp [Memory.read]

theorem Memory.read_consCell_other {a c : Nat} (hc : c ≠ a) (v : Byte) (m : Memory) :
    (Memory.consCell a v m).read c = m.read c := by
  unfold Memory.consCell
  split
  · rfl
  · simp [Memory.read, hc.symm]

/-- A write leaves every other address alone, whatever the form of the memory (20_memory.md R53). -/
theorem Memory.read_write_other (m : Memory) {a c : Nat} (hc : c ≠ a) (v : Byte) :
    (m.write a v).read c = m.read c := by
  induction m with
  | nil => exact Memory.read_consCell_other hc v []
  | cons cell m ih =>
    obtain ⟨b, w⟩ := cell
    unfold Memory.write
    split
    · exact Memory.read_consCell_other hc v _
    · split
      · next h => subst h; simp [Memory.read_consCell_other hc, Memory.read, hc.symm]
      · simp [Memory.read, ih]

theorem Memory.read_write_self_from {lo a : Nat} {m : Memory} (h : Memory.wfFrom lo m = true) (v : Byte) :
    (m.write a v).read a = v := by
  induction m generalizing lo with
  | nil => exact Memory.read_consCell_self rfl
  | cons cell m ih =>
    obtain ⟨b, w⟩ := cell
    have h' := (Memory.wfFrom_cons _ _ _ _).1 h
    unfold Memory.write
    split
    · exact Memory.read_consCell_self ((Memory.wfFrom_cons _ _ _ _).2 ⟨by omega, h'.2⟩)
    · split
      · next hab => subst hab; exact Memory.read_consCell_self h'.2.2.2
      · next hab => simp [Memory.read, Ne.symm hab, ih h'.2.2.2]

/-- A read gives the byte last written to the address (20_memory.md R50). -/
theorem Memory.read_write_self {m : Memory} (h : m.wf = true) (a : Nat) (v : Byte) :
    (m.write a v).read a = v := Memory.read_write_self_from h v

theorem Memory.read_write {m : Memory} (h : m.wf = true) (a c : Nat) (v : Byte) :
    (m.write a v).read c = if c = a then v else m.read c := by
  by_cases hc : c = a
  · subst hc; simp [Memory.read_write_self h]
  · simp [hc, Memory.read_write_other m hc]

theorem Memory.wfFrom_consCell {lo a : Nat} {v : Byte} {m : Memory} (hlo : lo ≤ a) (ha : a < 256)
    (h : Memory.wfFrom (a + 1) m = true) : Memory.wfFrom lo (Memory.consCell a v m) = true := by
  unfold Memory.consCell
  split
  · exact Memory.wfFrom_mono h (by omega)
  · next hv => exact (Memory.wfFrom_cons _ _ _ _).2 ⟨hlo, ha, hv, h⟩

theorem Memory.wfFrom_write {lo a : Nat} {m : Memory} (h : Memory.wfFrom lo m = true) (hlo : lo ≤ a) (ha : a < 256)
    (v : Byte) : Memory.wfFrom lo (m.write a v) = true := by
  induction m generalizing lo with
  | nil => exact Memory.wfFrom_consCell hlo ha rfl
  | cons cell m ih =>
    obtain ⟨b, w⟩ := cell
    have h' := (Memory.wfFrom_cons _ _ _ _).1 h
    unfold Memory.write
    split
    · exact Memory.wfFrom_consCell hlo ha ((Memory.wfFrom_cons _ _ _ _).2 ⟨by omega, h'.2⟩)
    · split
      · next hab => subst hab; exact Memory.wfFrom_consCell hlo ha h'.2.2.2
      · exact (Memory.wfFrom_cons _ _ _ _).2 ⟨h'.1, h'.2.1, h'.2.2.1, ih h'.2.2.2 (by omega)⟩

/-- Writing inside memory keeps the canonical form. -/
theorem Memory.wf_write {m : Memory} (h : m.wf = true) {a : Nat} (ha : a < 256) (v : Byte) :
    (m.write a v).wf = true := Memory.wfFrom_write h (Nat.zero_le a) ha v

/-- `memWrite` keeps the canonical form. -/
theorem memWrite_wf {s t : State} {a : Nat} {v : Byte} (h : s.mem.wf = true) (hw : memWrite s a v = .ok t) :
    t.mem.wf = true := by
  unfold memWrite at hw
  split at hw
  · cases hw
  · next ha => cases hw; exact Memory.wf_write h (by omega) v

/-- `State.poke` keeps the canonical form. -/
theorem State.poke_wf {s : State} (h : s.mem.wf = true) (a : Nat) (v : Byte) : (s.poke a v).mem.wf = true := by
  unfold State.poke
  split
  · next ha => exact Memory.wf_write h ha v
  · exact h

/-- `State.pokeBytes` keeps the canonical form. -/
theorem State.pokeBytes_wf {s : State} (h : s.mem.wf = true) (a : Nat) (bytes : List Byte) :
    (s.pokeBytes a bytes).mem.wf = true := by
  induction bytes generalizing s a with
  | nil => exact h
  | cons v rest ih => exact ih (State.poke_wf h a v) (a + 1)

theorem reset_mem_wf : State.reset.mem.wf = true := rfl

theorem Memory.read_above {lo a : Nat} {m : Memory} (h : Memory.wfFrom lo m = true) (ha : 255 < a) :
    m.read a = 0 := by
  induction m generalizing lo with
  | nil => rfl
  | cons c m ih =>
    obtain ⟨b, w⟩ := c
    rw [Memory.wfFrom_cons] at h
    have : b ≠ a := by omega
    simp [Memory.read, this, ih h.2.2.2]

end Sys2Proof.Machine
end

