-- ==== Sys2Proof/Laws/Attempt.lean ====
section
/-!
SUPPORT. What each shared operation can answer: register checks, memory accesses, the stack accesses, `settle` and the
operand forms.
-/

namespace Sys2Proof.Machine

/-! ### the attempt's sequencing -/

@[simp] theorem attempt_ok_bind {α β : Type} (x : α) (k : α → Attempt β) : ((Except.ok x : Attempt α) >>= k) = k x := rfl

@[simp] theorem attempt_error_bind {α β : Type} (r : FaultRecord) (k : α → Attempt β) :
    ((Except.error r : Attempt α) >>= k) = .error r := rfl

@[simp] theorem attempt_pure {α : Type} (x : α) : (pure x : Attempt α) = .ok x := rfl

@[simp] theorem attempt_throw {α : Type} (r : FaultRecord) : (throw r : Attempt α) = .error r := rfl

/-- An attempt in two parts succeeds exactly when both do. -/
theorem attempt_bind_ok_iff {α β : Type} {x : Attempt α} {k : α → Attempt β} {z : β} :
    (x >>= k) = .ok z ↔ ∃ y, x = .ok y ∧ k y = .ok z := by
  cases x <;> simp

/-- An attempt in two parts fails exactly when the first does, or the second after it. -/
theorem attempt_bind_error_iff {α β : Type} {x : Attempt α} {k : α → Attempt β} {r : FaultRecord} :
    (x >>= k) = .error r ↔ x = .error r ∨ ∃ y, x = .ok y ∧ k y = .error r := by
  cases x <;> simp

/-! ### settle -/

@[simp] theorem settle_ok (s t : State) : settle s (.ok t) = .next t := rfl

@[simp] theorem settle_error (s : State) (r : FaultRecord) : settle s (.error r) = raise s r := rfl

theorem settle_next_iff {s t : State} {x : Attempt State} : settle s x = .next t ↔ x = .ok t := by
  cases x <;> simp [raise]

theorem settle_fault_iff {s : State} {f : Fault} {x : Attempt State} :
    settle s x = .fault f ↔ ∃ r, x = .error r ∧ f = .raised r.cause r.info (s.faultedWith r) := by
  cases x <;> simp [raise, eq_comm]

theorem settle_not_refused {s : State} {r : Refusal} {x : Attempt State} : settle s x ≠ .refused r := by
  cases x <;> simp [raise]

/-! ### register checks -/

theorem regIndex_of_val {v : Byte} {d : Fin 8} (h : v.toNat = d.val) : regIndex v = .ok d := by
  have hlt : v.toNat < 8 := h ▸ d.isLt
  simp [regIndex, h]

theorem regIndex_of_large {v : Byte} (h : 7 < v.toNat) : regIndex v = .error ⟨.outOfRangeAddress, v.toNat⟩ := by
  have hlt : ¬ v.toNat < 8 := by omega
  simp [regIndex, hlt]

theorem regIndex_ok_iff {v : Byte} {d : Fin 8} : regIndex v = .ok d ↔ v.toNat = d.val := by
  constructor
  · intro h
    by_cases hlt : v.toNat < 8
    · simp only [regIndex, hlt, dif_pos, Except.ok.injEq] at h
      exact congrArg Fin.val h
    · simp [regIndex, hlt] at h
  · exact regIndex_of_val

theorem regIndex_error_iff {v : Byte} {r : FaultRecord} :
    regIndex v = .error r ↔ 7 < v.toNat ∧ r = ⟨.outOfRangeAddress, v.toNat⟩ := by
  by_cases hlt : v.toNat < 8
  · have : ¬ 7 < v.toNat := by omega
    simp [regIndex, hlt, this]
  · have : 7 < v.toNat := by omega
    simp [regIndex, hlt, this, eq_comm]

/-! ### memory accesses -/

theorem memRead_of_le {s : State} {a : Nat} (h : a ≤ 255) : memRead s a = .ok (s.mem.read a) := by
  have : ¬ a > 255 := by omega
  simp [memRead, this]

theorem memRead_of_gt {s : State} {a : Nat} (h : 255 < a) : memRead s a = .error ⟨.outOfRangeAddress, a⟩ := by
  simp [memRead, h]

theorem memWrite_of_le {s : State} {a : Nat} (h : a ≤ 255) (v : Byte) :
    memWrite s a v = .ok { s with mem := s.mem.write a v } := by
  have : ¬ a > 255 := by omega
  simp [memWrite, this]

/-- A stack address is a byte, so a stack store never faults (20_memory.md R55). -/
@[simp] theorem storeAtSp_eq (s : State) (v : Byte) :
    storeAtSp s v = .ok { s with mem := s.mem.write s.sp.toNat v } :=
  memWrite_of_le (by have := s.sp.isLt; omega) v

/-- A stack address is a byte, so a stack load never faults (20_memory.md R55). -/
@[simp] theorem loadAtSp_eq (s : State) : loadAtSp s = .ok (s.mem.read s.sp.toNat) :=
  memRead_of_le (by have := s.sp.isLt; omega)

/-! ### operand forms -/

theorem writeBinary_ok_iff {f : Byte → Byte → Byte} {a b : Byte} {s t : State} :
    writeBinary f a b s = .ok t ↔
      ∃ d r : Fin 8, a.toNat = d.val ∧ b.toNat = r.val ∧ t = (s.setReg d (f (s.reg d) (s.reg r))).advance 2 := by
  simp [writeBinary, attempt_bind_ok_iff, regIndex_ok_iff, eq_comm (b := t)]

theorem writeUnary_ok_iff {f : Byte → Byte} {a : Byte} {s t : State} :
    writeUnary f a s = .ok t ↔ ∃ d : Fin 8, a.toNat = d.val ∧ t = (s.setReg d (f (s.reg d))).advance 1 := by
  simp [writeUnary, attempt_bind_ok_iff, regIndex_ok_iff, eq_comm (b := t)]

theorem emitRegister_ok_iff {event : Byte → OutEvent} {a : Byte} {s t : State} :
    emitRegister event a s = .ok t ↔
      ∃ r : Fin 8, a.toNat = r.val ∧ t = (s.emit (event (s.reg r))).advance 1 := by
  simp [emitRegister, attempt_bind_ok_iff, regIndex_ok_iff, eq_comm (b := t)]

theorem jumpIf_ok_iff {taken : Bool} {a : Byte} {s t : State} :
    jumpIf taken a s = .ok t ↔
      ∃ r : Fin 8, a.toNat = r.val ∧ t = if taken then s.jumpTo (s.reg r) else s.advance 1 := by
  simp [jumpIf, attempt_bind_ok_iff, regIndex_ok_iff, eq_comm (b := t)]

end Sys2Proof.Machine
end

