-- ==== Sys2Proof/Laws/Decode.lean ====
section
/-!
SUPPORT. Lemmas about the opcode map, the decoder and the encoder.
-/

namespace Sys2Proof

theorem Mnemonic.mem_all (m : Mnemonic) : m ∈ Mnemonic.all := by cases m <;> decide

/-- Under an injective map a byte selects a mnemonic exactly when it is that mnemonic's value. -/
theorem OpcodeMap.lookup_some_iff {map : OpcodeMap} (inj : ∀ m n, map m = map n → m = n) {ir : Byte} {m : Mnemonic} :
    map.lookup ir = some m ↔ map m = ir := by
  constructor
  · intro h
    simpa using List.find?_some h
  · intro h
    cases hl : map.lookup ir with
    | none =>
      have := List.find?_eq_none.1 hl m m.mem_all
      simp [h] at this
    | some n =>
      have hn : map n = ir := by simpa using List.find?_some hl
      rw [inj n m (hn.trans h.symm)]

/-- A byte selects nothing exactly when it is no mnemonic's value. -/
theorem OpcodeMap.lookup_none_iff {map : OpcodeMap} {ir : Byte} : map.lookup ir = none ↔ ∀ m, map m ≠ ir := by
  simp [OpcodeMap.lookup, List.find?_eq_none, Mnemonic.mem_all]

@[simp] theorem Mnemonic.withOperands_mnemonic (m : Mnemonic) (a b : Byte) : (m.withOperands a b).mnemonic = m := by
  cases m <;> rfl

/-- Only the first three bytes are looked at, and the opcode alone decides whether they are an instruction. -/
theorem decodeWith_ok_iff {map : OpcodeMap} {ir a b : Byte} {rest : List Byte} {i : Instr} :
    decodeWith map (ir :: a :: b :: rest) = .ok i ↔ ∃ m, map.lookup ir = some m ∧ m.withOperands a b = i := by
  cases h : map.lookup ir <;> simp [decodeWith, h]

theorem decodeWith_error_iff {map : OpcodeMap} {ir a b : Byte} {rest : List Byte} {e : DecodeReject} :
    decodeWith map (ir :: a :: b :: rest) = .error e ↔ map.lookup ir = none ∧ e = .illegalInstruction ir := by
  cases h : map.lookup ir <;> simp [decodeWith, h, eq_comm (a := e)]

end Sys2Proof
end

