-- ==== Sys2Proof/Laws/Exec.lean ====
section
/-!
SUPPORT. What executing an instruction can answer, said once: it settles one attempt, so it retires or faults precisely
and never refuses.
-/

namespace Sys2Proof.Machine

/-- Every instruction settles one attempt made from the state it starts in (40_sequencer.md R120). -/
theorem exec_settles (i : Instr) (s : State) : ∃ x : Attempt State, exec i s = settle s x := by
  cases i with
  | hlt => exact ⟨.ok _, rfl⟩
  | ldi a imm => exact ⟨_, rfl⟩
  | prn a => exact ⟨_, rfl⟩
  | pra a => exact ⟨_, rfl⟩
  | add a b => exact ⟨_, rfl⟩
  | sub a b => exact ⟨_, rfl⟩
  | mul a b => exact ⟨_, rfl⟩
  | mod a b => exact ⟨_, rfl⟩
  | inc a => exact ⟨_, rfl⟩
  | dec a => exact ⟨_, rfl⟩
  | cmp a b => exact ⟨_, rfl⟩
  | and a b => exact ⟨_, rfl⟩
  | or a b => exact ⟨_, rfl⟩
  | xor a b => exact ⟨_, rfl⟩
  | not a => exact ⟨_, rfl⟩
  | shl a b => exact ⟨_, rfl⟩
  | shr a b => exact ⟨_, rfl⟩
  | push a => exact ⟨_, rfl⟩
  | pop a => exact ⟨_, rfl⟩
  | call a => exact ⟨_, rfl⟩
  | ret => exact ⟨_, rfl⟩
  | jmp a => exact ⟨_, rfl⟩
  | jeq a => exact ⟨_, rfl⟩
  | jne a => exact ⟨_, rfl⟩

theorem exec_not_refused (i : Instr) (s : State) (r : Refusal) : exec i s ≠ .refused r := by
  obtain ⟨x, hx⟩ := exec_settles i s
  rw [hx]; exact settle_not_refused

/-! ### the stack and transfer handlers, unfolded once -/

theorem execPush_next_iff {a : Byte} {s t : State} :
    execPush a s = .next t ↔ ∃ r : Fin 8, a.toNat = r.val ∧
      t = { s.decSp with mem := s.mem.write s.decSp.sp.toNat (s.decSp.reg r) }.advance 1 := by
  simp [execPush, settle_next_iff, attempt_bind_ok_iff, regIndex_ok_iff, eq_comm (b := t)]

theorem execPop_next_iff {a : Byte} {s t : State} :
    execPop a s = .next t ↔ ∃ d : Fin 8, a.toNat = d.val ∧
      t = ((s.setReg d (s.mem.read s.sp.toNat)).incSp.advance 1) := by
  simp [execPop, settle_next_iff, attempt_bind_ok_iff, regIndex_ok_iff, eq_comm (b := t)]

theorem execCall_next_iff {a : Byte} {s t : State} :
    execCall a s = .next t ↔ ∃ r : Fin 8, a.toNat = r.val ∧
      t = { s.decSp with mem := s.mem.write s.decSp.sp.toNat s.returnAddress }.jumpTo (s.decSp.reg r) := by
  simp [execCall, settle_next_iff, attempt_bind_ok_iff, regIndex_ok_iff, State.reg, eq_comm (b := t)]

theorem execRet_eq (s : State) : execRet s = .next (s.jumpTo (s.mem.read s.sp.toNat)).incSp := by
  simp [execRet]

theorem execLdi_next_iff {a imm : Byte} {s t : State} :
    execLdi a imm s = .next t ↔ ∃ d : Fin 8, a.toNat = d.val ∧ t = (s.setReg d imm).advance 2 := by
  simp [execLdi, settle_next_iff, attempt_bind_ok_iff, regIndex_ok_iff, eq_comm (b := t)]

theorem execCmp_next_iff {a b : Byte} {s t : State} :
    execCmp a b s = .next t ↔ ∃ p q : Fin 8, a.toNat = p.val ∧ b.toNat = q.val ∧
      t = { s with fl := compareFlags (s.reg p) (s.reg q) }.advance 2 := by
  simp [execCmp, settle_next_iff, attempt_bind_ok_iff, regIndex_ok_iff, eq_comm (b := t)]

theorem execMod_next_iff {a b : Byte} {s t : State} :
    execMod a b s = .next t ↔ ∃ d r : Fin 8, a.toNat = d.val ∧ b.toNat = r.val ∧ s.reg r ≠ 0 ∧
      t = (s.setReg d (aluMod (s.reg d) (s.reg r))).advance 2 := by
  rw [execMod, settle_next_iff]
  simp only [attempt_bind_ok_iff, regIndex_ok_iff, attempt_throw, attempt_pure]
  constructor
  · rintro ⟨d, hd, r, hr, h⟩
    split at h
    · cases h
    · next hz => cases h; exact ⟨d, r, hd, hr, hz, rfl⟩
  · rintro ⟨d, r, hd, hr, hz, rfl⟩
    exact ⟨d, hd, r, hr, if_neg hz⟩

end Sys2Proof.Machine
end

