-- ==== Sys2Proof/Laws/PerInstr.lean ====
section
/-!
SUPPORT. Facts about every instruction as syntax, one lemma per constructor: the operand bytes are as many as the
format has, they rebuild the instruction, and the register operands are the first of them.
-/

namespace Sys2Proof.Laws.Shape

/-- The operands fit the format of the mnemonic, rebuild the instruction, and begin with the register operands. -/
def Statement (i : Instr) : Prop :=
  i.operands.length = i.mnemonic.operandCount ∧
  i.mnemonic.withOperands (i.operands.getD 0 0) (i.operands.getD 1 0) = i ∧
  i.registerOperands = i.operands.take i.registerOperands.length

theorem hlt : Statement .hlt := ⟨rfl, rfl, rfl⟩
theorem ldi (a imm : Byte) : Statement (.ldi a imm) := ⟨rfl, rfl, rfl⟩
theorem prn (a : Byte) : Statement (.prn a) := ⟨rfl, rfl, rfl⟩
theorem pra (a : Byte) : Statement (.pra a) := ⟨rfl, rfl, rfl⟩
theorem add (a b : Byte) : Statement (.add a b) := ⟨rfl, rfl, rfl⟩
theorem sub (a b : Byte) : Statement (.sub a b) := ⟨rfl, rfl, rfl⟩
theorem mul (a b : Byte) : Statement (.mul a b) := ⟨rfl, rfl, rfl⟩
theorem mod (a b : Byte) : Statement (.mod a b) := ⟨rfl, rfl, rfl⟩
theorem inc (a : Byte) : Statement (.inc a) := ⟨rfl, rfl, rfl⟩
theorem dec (a : Byte) : Statement (.dec a) := ⟨rfl, rfl, rfl⟩
theorem cmp (a b : Byte) : Statement (.cmp a b) := ⟨rfl, rfl, rfl⟩
theorem and (a b : Byte) : Statement (.and a b) := ⟨rfl, rfl, rfl⟩
theorem or (a b : Byte) : Statement (.or a b) := ⟨rfl, rfl, rfl⟩
theorem xor (a b : Byte) : Statement (.xor a b) := ⟨rfl, rfl, rfl⟩
theorem not (a : Byte) : Statement (.not a) := ⟨rfl, rfl, rfl⟩
theorem shl (a b : Byte) : Statement (.shl a b) := ⟨rfl, rfl, rfl⟩
theorem shr (a b : Byte) : Statement (.shr a b) := ⟨rfl, rfl, rfl⟩
theorem push (a : Byte) : Statement (.push a) := ⟨rfl, rfl, rfl⟩
theorem pop (a : Byte) : Statement (.pop a) := ⟨rfl, rfl, rfl⟩
theorem call (a : Byte) : Statement (.call a) := ⟨rfl, rfl, rfl⟩
theorem ret : Statement .ret := ⟨rfl, rfl, rfl⟩
theorem jmp (a : Byte) : Statement (.jmp a) := ⟨rfl, rfl, rfl⟩
theorem jeq (a : Byte) : Statement (.jeq a) := ⟨rfl, rfl, rfl⟩
theorem jne (a : Byte) : Statement (.jne a) := ⟨rfl, rfl, rfl⟩

end Sys2Proof.Laws.Shape
end

