-- ==== Sys2Proof/Laws/Step.lean ====
section
/-!
SUPPORT. What fetching, decoding and stepping can answer, said once.
-/

namespace Sys2Proof.Machine

/-- A fetch succeeds exactly up to address 253, with the three bytes there (40_sequencer.md R111). -/
theorem fetch_ok_iff {s : State} {bytes : List Byte} :
    fetch s = .ok bytes ↔ s.pc.toNat ≤ 253 ∧
      bytes = [s.mem.read s.pc.toNat, s.mem.read (s.pc.toNat + 1), s.mem.read (s.pc.toNat + 2)] := by
  constructor
  · intro h
    simp only [fetch, attempt_bind_ok_iff, attempt_pure, Except.ok.injEq] at h
    obtain ⟨ir, h0, a, h1, b, h2, rfl⟩ := h
    unfold memRead at h0 h1 h2
    split at h0
    · cases h0
    split at h1
    · cases h1
    split at h2
    · cases h2
    cases h0; cases h1; cases h2
    exact ⟨by omega, rfl⟩
  · rintro ⟨hpc, rfl⟩
    simp [fetch, memRead_of_le (s := s) (a := s.pc.toNat) (by omega),
      memRead_of_le (s := s) (a := s.pc.toNat + 1) (by omega),
      memRead_of_le (s := s) (a := s.pc.toNat + 2) (by omega)]

theorem decodeFetched_ok_iff {map : OpcodeMap} {bytes : List Byte} {i : Instr} :
    decodeFetched map bytes = .ok i ↔ decodeWith map bytes = .ok i := by
  unfold decodeFetched
  split <;> simp_all

/-- What one step can do when it answers a next state: it ran a decoded instruction. -/
theorem stepWith_next_iff {map : OpcodeMap} {s t : State} :
    stepWith map s = .next t ↔ s.run = .running ∧ ∃ i, fetchInstr map s = .ok i ∧ exec i s = .next t := by
  unfold stepWith
  cases hr : s.run with
  | running => cases hf : fetchInstr map s <;> simp [raise]
  | halted => simp
  | faulted => simp

theorem fetchInstr_ok_iff {map : OpcodeMap} {s : State} {i : Instr} :
    fetchInstr map s = .ok i ↔ s.pc.toNat ≤ 253 ∧
      decodeWith map [s.mem.read s.pc.toNat, s.mem.read (s.pc.toNat + 1), s.mem.read (s.pc.toNat + 2)] = .ok i := by
  simp only [fetchInstr, attempt_bind_ok_iff, fetch_ok_iff, decodeFetched_ok_iff]
  constructor
  · rintro ⟨_, ⟨h, rfl⟩, hd⟩; exact ⟨h, hd⟩
  · rintro ⟨h, hd⟩; exact ⟨_, ⟨h, rfl⟩, hd⟩

/-- A step never refuses. -/
theorem step_not_refused (s : State) (r : Refusal) : step s ≠ .refused r := by
  unfold step stepWith
  cases s.run with
  | running =>
    cases fetchInstr Config.opcodeMap s with
    | ok i => exact exec_not_refused i s r
    | error e => simp [raise]
  | halted => simp
  | faulted => simp

end Sys2Proof.Machine
end

