-- ==== Sys2Proof/Tests/Slice0.lean ====
section
/-!
SUPPORT. Tests on fixed values, taken from the spec's encodings (30_encoding.md R85) and vectors (95_test_vectors.md,
named in each comment), and one witness per hypothesis of a statement.
-/

open Sys2Proof Sys2Proof.Machine Sys2Proof.Claims

namespace Sys2Proof.Tests

/-! ### Helpers -/

/-- A running state with bytes from `pc` upward and some registers set. -/
def start (pc : PcWord) (bytes : List Byte) (regs : List (Fin 8 × Byte)) : State :=
  (regs.foldl (fun (s : State) (p : Fin 8 × Byte) => s.setReg p.1 p.2) { State.reset with pc := pc }).pokeBytes
    pc.toNat bytes

/-- The outcome is a next state with this property. -/
def nextHas (o : Result) (p : State → Bool) : Bool :=
  match o with
  | .next t => p t
  | _ => false

/-- The outcome is this fault, leaving the given state but for `run` and the fault record. -/
def faultIs (o : Result) (c : FaultCause) (n : Nat) (s : State) : Bool :=
  match o with
  | .fault (.raised c' n' t) =>
    c' == c && n' == n && decide (t = { s with run := .faulted, fault := some ⟨c, n⟩ })
  | _ => false

/-! ### Well-formedness -/

theorem test_wf_refuses_operand_a_8 : (Instr.push 8).wellFormed = false := by decide
theorem test_wf_refuses_operand_b_8 : (Instr.add 7 8).wellFormed = false := by decide
theorem test_wf_allows_any_immediate : (Instr.ldi 7 0xFF).wellFormed = true := by decide

/-! ### Decoding: words from the bytes of 30_encoding.md R85, operand `a` = 2 in bits 15..8, `b` = 3 in bits 23..16 -/

theorem test_decode_sequencer : decodeTableWord 8 0b00000001 = some .hlt := by decide

theorem test_decode_data_move :
    decodeTableWord 24 0b00000011_00000010_10000010 = some (.ldi 2 3) ∧
    decodeTableWord 16 0b00000010_01000111 = some (.prn 2) ∧
    decodeTableWord 16 0b00000010_01001000 = some (.pra 2) := by decide

theorem test_decode_alu_two_operands :
    decodeTableWord 24 0b00000011_00000010_10100000 = some (.add 2 3) ∧
    decodeTableWord 24 0b00000011_00000010_10100001 = some (.sub 2 3) ∧
    decodeTableWord 24 0b00000011_00000010_10100010 = some (.mul 2 3) ∧
    decodeTableWord 24 0b00000011_00000010_10100100 = some (.mod 2 3) ∧
    decodeTableWord 24 0b00000011_00000010_10100111 = some (.cmp 2 3) ∧
    decodeTableWord 24 0b00000011_00000010_10101000 = some (.and 2 3) ∧
    decodeTableWord 24 0b00000011_00000010_10101010 = some (.or 2 3) ∧
    decodeTableWord 24 0b00000011_00000010_10101011 = some (.xor 2 3) ∧
    decodeTableWord 24 0b00000011_00000010_10101100 = some (.shl 2 3) ∧
    decodeTableWord 24 0b00000011_00000010_10101101 = some (.shr 2 3) := by decide

theorem test_decode_alu_one_operand :
    decodeTableWord 16 0b00000010_01100101 = some (.inc 2) ∧
    decodeTableWord 16 0b00000010_01100110 = some (.dec 2) ∧
    decodeTableWord 16 0b00000010_01101001 = some (.not 2) := by decide

theorem test_decode_stack :
    decodeTableWord 16 0b00000010_01000101 = some (.push 2) ∧
    decodeTableWord 16 0b00000010_01000110 = some (.pop 2) := by decide

theorem test_decode_control :
    decodeTableWord 16 0b00000010_01010000 = some (.call 2) ∧
    decodeTableWord 8 0b00010001 = some .ret ∧
    decodeTableWord 16 0b00000010_01010100 = some (.jmp 2) ∧
    decodeTableWord 16 0b00000010_01010101 = some (.jeq 2) ∧
    decodeTableWord 16 0b00000010_01010110 = some (.jne 2) := by decide

/-- Illegal bytes of 30_encoding.md R87, V-Q6 to V-Q8. -/
theorem test_decode_refuses :
    decodeTableWord 8 0x00 = none ∧ decodeTableWord 8 0xC0 = none ∧ decodeTableWord 8 0xA3 = none := by decide

theorem test_encode_ldi : encode (.ldi 0 8) = [0x82, 0x00, 0x08] := by decide

/-! ### Steps -/

/-- V-Q2. -/
theorem test_hlt_at_253 :
    nextHas (step (start 253 [0x01] [])) (fun t => t.pc == 254 && t.run == .halted) = true := by decide

/-- V-Q4: the lookahead faults before HLT is decoded. -/
theorem test_hlt_at_255_faults :
    faultIs (step (start 255 [0x01] [])) .outOfRangeAddress 256 (start 255 [0x01] []) = true := by decide

/-- V-Q5. -/
theorem test_ldi_at_253 :
    nextHas (step (start 253 [0x82, 0x01, 0x09] [])) (fun t => t.reg 1 == 9 && t.pc == 256 && t.run == .running) =
      true := by decide

/-- V-D3. -/
theorem test_ldi_register_8_faults :
    faultIs (step (start 0 [0x82, 0x08, 0x01] [])) .outOfRangeAddress 8 (start 0 [0x82, 0x08, 0x01] []) = true := by
  decide

/-- V-D5. -/
theorem test_prn_255 :
    nextHas (step (start 0 [0x47, 0x02] [(2, 255)])) (fun t => t.out == [.num 255] && t.pc == 2) = true := by decide

/-- V-D8. -/
theorem test_pra_unprintable :
    nextHas (step (start 0 [0x48, 0x01] [(1, 0x07)])) (fun t => t.out == [.chr 0x07]) = true := by decide

/-- V-A3. -/
theorem test_add_wraps :
    nextHas (step (start 0 [0xA0, 0, 1] [(0, 200), (1, 100)])) (fun t => t.reg 0 == 44 && t.pc == 3) = true := by decide

/-- V-A52. -/
theorem test_add_checks_a_first :
    faultIs (step (start 0 [0xA0, 0x0A, 0x0B] [])) .outOfRangeAddress 10 (start 0 [0xA0, 0x0A, 0x0B] []) = true := by
  decide

/-- V-A8. -/
theorem test_sub_borrows :
    nextHas (step (start 0 [0xA1, 0, 1] [(0, 0), (1, 255)])) (fun t => t.reg 0 == 1) = true := by decide

/-- V-A12. -/
theorem test_mul_keeps_low_byte :
    nextHas (step (start 0 [0xA2, 0, 1] [(0, 255), (1, 255)])) (fun t => t.reg 0 == 1) = true := by decide

/-- V-A17. -/
theorem test_mod_unsigned :
    nextHas (step (start 0 [0xA4, 0, 1] [(0, 255), (1, 16)])) (fun t => t.reg 0 == 15) = true := by decide

/-- V-A19. -/
theorem test_mod_zero_faults :
    faultIs (step (start 3 [0xA4, 0, 1] [(0, 7)])) .divideByZero 3 (start 3 [0xA4, 0, 1] [(0, 7)]) = true := by decide

/-- V-A22. -/
theorem test_inc_wraps :
    nextHas (step (start 0 [0x65, 2] [(2, 255)])) (fun t => t.reg 2 == 0 && t.pc == 2) = true := by decide

/-- V-A24. -/
theorem test_dec_sp :
    nextHas (step (start 0 [0x66, 7] [])) (fun t => t.reg 7 == 0xF3 && t.mem.read 0xF3 == 0) = true := by decide

/-- V-A28. -/
theorem test_cmp_is_unsigned :
    nextHas (step (start 0 [0xA7, 0, 1] [(0, 200), (1, 100)])) (fun t => t.fl == 0x02) = true := by decide

/-- V-A29. -/
theorem test_cmp_less :
    nextHas (step (start 0 [0xA7, 0, 1] [(0, 0), (1, 255)])) (fun t => t.fl == 0x04) = true := by decide

/-- V-A31. -/
theorem test_and :
    nextHas (step (start 0 [0xA8, 0, 1] [(0, 0xCC), (1, 0xAA)])) (fun t => t.reg 0 == 0x88) = true := by decide

/-- V-A32. -/
theorem test_or :
    nextHas (step (start 0 [0xAA, 0, 1] [(0, 0xCC), (1, 0xAA)])) (fun t => t.reg 0 == 0xEE) = true := by decide

/-- V-A33. -/
theorem test_xor :
    nextHas (step (start 0 [0xAB, 0, 1] [(0, 0xCC), (1, 0xAA)])) (fun t => t.reg 0 == 0x66) = true := by decide

/-- V-A36. -/
theorem test_not :
    nextHas (step (start 0 [0x69, 3] [(3, 0x0F)])) (fun t => t.reg 3 == 0xF0) = true := by decide

/-- V-A41. -/
theorem test_shl_by_8 :
    nextHas (step (start 0 [0xAC, 0, 1] [(0, 1), (1, 8)])) (fun t => t.reg 0 == 0) = true := by decide

/-- V-A44. -/
theorem test_shl_same_register :
    nextHas (step (start 0 [0xAC, 0, 0] [(0, 3)])) (fun t => t.reg 0 == 24) = true := by decide

/-- V-A46. -/
theorem test_shr_is_logical :
    nextHas (step (start 0 [0xAD, 0, 1] [(0, 0x81), (1, 1)])) (fun t => t.reg 0 == 0x40) = true := by decide

/-- V-S3. -/
theorem test_push_r7 :
    nextHas (step (start 0 [0x45, 7] [])) (fun t => t.sp == 0xF3 && t.mem.read 0xF3 == 0xF3) = true := by decide

/-- V-S5. -/
theorem test_push_wraps :
    nextHas (step (start 2 [0x45, 0] [(7, 0), (0, 0xAB)])) (fun t => t.sp == 0xFF && t.mem.read 0xFF == 0xAB) =
      true := by decide

/-- V-S4. -/
theorem test_pop_r7 :
    nextHas (step ((start 0 [0x46, 7] [(7, 0xF3)]).poke 0xF3 0x20)) (fun t => t.sp == 0x21) = true := by decide

/-- V-S6. -/
theorem test_pop_wraps :
    nextHas (step ((start 2 [0x46, 1] [(7, 0xFF)]).poke 0xFF 0xAB)) (fun t => t.reg 1 == 0xAB && t.sp == 0) =
      true := by decide

/-- V-J12. -/
theorem test_call_r7 :
    nextHas (step (start 0 [0x50, 7, 1] [])) (fun t => t.sp == 0xF3 && t.mem.read 0xF3 == 2 && t.pc == 0xF3) =
      true := by decide

/-- V-J16. -/
theorem test_call_at_253 :
    nextHas (step (start 253 [0x50, 0] [(0, 5)])) (fun t => t.mem.read 0xF3 == 255 && t.pc == 5) = true := by decide

/-- V-J11. -/
theorem test_ret :
    nextHas (step ((start 20 [0x11] [(7, 0xF2)]).poke 0xF2 10)) (fun t => t.pc == 10 && t.sp == 0xF3) = true := by
  decide

/-- V-J1. -/
theorem test_jmp : nextHas (step (start 30 [0x54, 2] [(2, 12)])) (fun t => t.pc == 12) = true := by decide

/-- V-J2. -/
theorem test_jeq_taken :
    nextHas (step { start 20 [0x55, 2] [(2, 40)] with fl := 0x01 }) (fun t => t.pc == 40) = true := by decide

/-- V-J9. -/
theorem test_jeq_checks_when_not_taken :
    faultIs (step (start 20 [0x55, 9] [])) .outOfRangeAddress 9 (start 20 [0x55, 9] []) = true := by decide

/-- V-J6. -/
theorem test_jne_at_reset_flags :
    nextHas (step (start 20 [0x56, 2] [(2, 12)])) (fun t => t.pc == 12) = true := by decide

/-- V-J7. -/
theorem test_jne_not_taken :
    nextHas (step { start 20 [0x56, 2] [(2, 12)] with fl := 0x01 }) (fun t => t.pc == 22) = true := by decide

/-- V-Q6: reset with nothing loaded. -/
theorem test_empty_image_faults :
    faultIs (step State.reset) .illegalInstruction 0 State.reset = true := by decide

/-! ### The host's side -/

/-- The first scenario's text of 30_encoding.md R91. -/
theorem test_load_text :
    (match loadProgram ["10000010 # LDI".toList, "".toList, " 00000000".toList, "00001000".toList] with
     | .ok s => s.mem.read 0 == 0x82 && s.mem.read 1 == 0 && s.mem.read 2 == 8 && s.sp == 0xF4
     | .error _ => false) = true := by decide

theorem test_load_refuses_nine_bits : parseToken "100000000".toList = .error .programLoadError := by rfl

/-- V-D6 and S3: `0` and `11`, each on its own line. -/
theorem test_render_numbers : renderOutput [.num 0, .num 11] = ['0', '\n', '1', '1', '\n'] := by decide

/-- At 254 the trace reads two bytes. -/
theorem test_trace_at_254 :
    (start 254 [0x47, 0x02] []).trace.bytes = [some 0x47, some 0x02, none] ∧
    (start 254 [0x47, 0x02] []).trace.pc = 254 := by decide

/-! ### Witnesses: states and operands that meet the hypotheses of each statement, at the ends of their ranges -/

/-- A second admissible map: ADD and SUB exchanged. -/
def swappedMap : OpcodeMap
  | .add => 0xA1
  | .sub => 0xA0
  | .hlt => 0x01 | .ldi => 0x82 | .prn => 0x47 | .pra => 0x48 | .mul => 0xA2 | .mod => 0xA4 | .inc => 0x65
  | .dec => 0x66 | .cmp => 0xA7 | .and => 0xA8 | .or => 0xAA | .xor => 0xAB | .not => 0x69 | .shl => 0xAC
  | .shr => 0xAD | .push => 0x45 | .pop => 0x46 | .call => 0x50 | .ret => 0x11 | .jmp => 0x54 | .jeq => 0x55
  | .jne => 0x56

theorem witness_DecodeOfEncodeIsTheInstruction : swappedMap.Admissible where
  injective := by intro m n; cases m <;> cases n <;> decide
  hlt := rfl
  ldi := rfl
  prn := rfl
  count := by intro m; cases m <;> decide
  alu := by intro m; cases m <;> decide
  setsPc := by intro m; cases m <;> decide

theorem witness_EncodeOfDecodeIsTheFetchedBytes :
    swappedMap.Admissible ∧ decodeWith swappedMap [0xA0, 1, 2] = .ok (.sub 1 2) :=
  ⟨witness_DecodeOfEncodeIsTheInstruction, rfl⟩

theorem witness_IllegalOpcodesAreTheOther232 :
    swappedMap.Admissible ∧ opcodeCount 0xC0 = 3 ∧ opcodeCount 0xFF = 3 ∧
    (start 253 [0xFF] []).run = .running ∧ (start 253 [0xFF] []).pc.toNat ≤ 253 ∧
    (start 253 [0xFF] []).mem.read (start 253 [0xFF] []).pc.toNat = 0xFF ∧ ∀ m, swappedMap m ≠ 0xFF :=
  ⟨witness_DecodeOfEncodeIsTheInstruction, by decide, by decide, rfl, by decide, by decide,
    by intro m; cases m <;> decide⟩

theorem witness_StepRunsTheDecodedInstruction :
    (start 253 [0xA0, 1, 2] []).run = .running ∧ (start 253 [0xA0, 1, 2] []).pc.toNat ≤ 253 ∧
    decode (bytesAtPc (start 253 [0xA0, 1, 2] [])) = .ok (.add 1 2) ∧
    decodeWith swappedMap (bytesAtPc (start 253 [0xA0, 1, 2] [])) = .ok (.sub 1 2) := ⟨rfl, by decide, rfl, rfl⟩

/-- Each clause at its end of the range: 253; 254 and 255; 256. -/
theorem witness_FetchReadsThreeBytesOrFaults :
    (start 253 [] []).pc.toNat ≤ 253 ∧ (start 254 [] []).pc.toNat = 254 ∧ (start 255 [] []).pc.toNat = 255 ∧
    256 ≤ (start 256 [] []).pc.toNat ∧ (start 256 [] []).run = .running ∧
    fetch (start 256 [] []) = .error ⟨.outOfRangeAddress, 256⟩ := ⟨by decide, rfl, rfl, by decide, rfl, rfl⟩

/-- 253; and 254 and 255, where the fetch faults first. -/
theorem witness_IllegalOpcodeFaults :
    (start 253 [0xC0] []).run = .running ∧ (start 253 [0xC0] []).pc.toNat ≤ 253 ∧
    (∀ m, swappedMap m ≠ (start 253 [0xC0] []).mem.read (start 253 [0xC0] []).pc.toNat) ∧
    (start 254 [] []).run = .running ∧ (start 254 [] []).pc.toNat = 254 ∧ (start 255 [] []).pc.toNat = 255 ∧
    (∀ m, swappedMap m ≠ (start 254 [] []).mem.read (start 254 [] []).pc.toNat) :=
  ⟨rfl, by decide, by intro m; cases m <;> decide, rfl, rfl, rfl, by intro m; cases m <;> decide⟩

theorem witness_NoStepOutsideRunning :
    ({ State.reset with run := .halted } : State).run = .halted ∧
    ({ State.reset with run := .faulted } : State).run = .faulted ∧
    swappedMap.Admissible ∧ ∃ t, stepWith swappedMap (start 253 [0x01] []) = .next t :=
  ⟨rfl, rfl, witness_DecodeOfEncodeIsTheInstruction, _, rfl⟩

theorem witness_FaultEntryIsPrecise :
    (∃ t, step State.reset = .fault (.raised .illegalInstruction 0 t)) ∧
    ∃ t, stepWith swappedMap (start 253 [0xA4, 7, 0] []) = .fault (.raised .divideByZero 253 t) :=
  ⟨⟨_, rfl⟩, _, rfl⟩

/-- One state for each failing check in its order, and one in which none fails; all are running. -/
theorem witness_StepRaisesTheFirstFailingCheck :
    swappedMap.Admissible ∧
    (start 256 [] []).run = .running ∧
    firstFault swappedMap (start 256 [] []) = some (.outOfRangeAddress, 256) ∧
    firstFault swappedMap (start 255 [0xFF] []) = some (.outOfRangeAddress, 256) ∧
    firstFault swappedMap (start 254 [0xFF, 0xFF] []) = some (.outOfRangeAddress, 256) ∧
    firstFault swappedMap (start 253 [0xFF, 0xFF, 0xFF] []) = some (.illegalInstruction, 255) ∧
    firstFault swappedMap (start 253 [0xA4, 8, 9] []) = some (.outOfRangeAddress, 8) ∧
    firstFault swappedMap (start 253 [0xA4, 7, 9] []) = some (.outOfRangeAddress, 9) ∧
    firstFault swappedMap (start 253 [0xA4, 7, 0] []) = some (.divideByZero, 253) ∧
    firstFault swappedMap (start 253 [0xA4, 7, 7] []) = none ∧ firstFault swappedMap (start 253 [0x01, 8, 9] []) = none :=
  ⟨witness_DecodeOfEncodeIsTheInstruction, by decide⟩

theorem witness_OnlyTheListedFaultsOccur :
    swappedMap.Admissible ∧ (start 256 [] []).run = .running ∧ (start 256 [] []).pc.toNat ≤ 256 ∧
    ∃ t, stepWith swappedMap (start 256 [] []) = .fault (.raised .outOfRangeAddress 256 t) :=
  ⟨witness_DecodeOfEncodeIsTheInstruction, rfl, by decide, _, rfl⟩

/-- Each case of the statement: operand `a`, operand `b`, and none out of range. -/
theorem witness_HandlersCheckTheirRegisterOperands :
    (Instr.add 8 9).registerOperands.find? (fun x => decide (7 < x.toNat)) = some 8 ∧
    (Instr.add 7 9).registerOperands.find? (fun x => decide (7 < x.toNat)) = some 9 ∧
    (Instr.ldi 7 9).registerOperands.find? (fun x => decide (7 < x.toNat)) = none ∧
    (Instr.mod 7 0).registerOperands.find? (fun x => decide (7 < x.toNat)) = none ∧
    namedRegister State.reset 0 = 0 ∧ (∀ a b, Instr.ldi 7 9 = .mod a b → namedRegister State.reset b ≠ 0) :=
  ⟨by decide, by decide, by decide, by decide, by decide, by simp⟩

theorem witness_HltAdvancesThenHalts : (start 253 [] []).pc.toNat ≤ 253 := by decide

theorem witness_LdiLoadsTheImmediateByte :
    7 < (8 : Byte).toNat ∧ (7 : Byte).toNat = (7 : Fin 8).val ∧ (start 253 [] []).pc.toNat ≤ 253 := by decide

theorem witness_PrintsEmitOneEvent :
    7 < (8 : Byte).toNat ∧ (7 : Byte).toNat = (7 : Fin 8).val ∧ (start 253 [] []).pc.toNat ≤ 253 := by decide

theorem witness_IncAndDecWrap :
    7 < (8 : Byte).toNat ∧ (7 : Byte).toNat = (7 : Fin 8).val ∧ (start 253 [] []).pc.toNat ≤ 253 := by decide

theorem witness_PopLoadsThenIncrements :
    7 < (8 : Byte).toNat ∧ (7 : Byte).toNat = (7 : Fin 8).val ∧ (start 253 [] []).pc.toNat ≤ 253 := by decide

theorem witness_JmpGoesToTheRegister :
    7 < (8 : Byte).toNat ∧ (7 : Byte).toNat = (7 : Fin 8).val ∧ (start 253 [] []).pc.toNat ≤ 253 := by decide

theorem witness_ConditionalJumpsTestTheWholeByte :
    7 < (8 : Byte).toNat ∧ (7 : Byte).toNat = (7 : Fin 8).val ∧ (start 253 [] []).pc.toNat ≤ 253 ∧
    ({ State.reset with fl := 0x01 } : State).fl = 0x01 ∧ ({ State.reset with fl := 0x03 } : State).fl ≠ 0x01 := by
  decide

theorem witness_AddAndMulWrapModulo256 :
    7 < (8 : Byte).toNat ∧ (7 : Byte).toNat ≤ 7 ∧ (7 : Byte).toNat = (7 : Fin 8).val ∧
    (0 : Byte).toNat = (0 : Fin 8).val ∧ (start 253 [] []).pc.toNat ≤ 253 := by decide

theorem witness_SubAndXorAsSupplied :
    7 < (8 : Byte).toNat ∧ (7 : Byte).toNat ≤ 7 ∧ (7 : Byte).toNat = (7 : Fin 8).val ∧
    (0 : Byte).toNat = (0 : Fin 8).val ∧ (start 253 [] []).pc.toNat ≤ 253 := by decide

theorem witness_AndOrNotActOnEachBit :
    7 < (8 : Byte).toNat ∧ (7 : Byte).toNat ≤ 7 ∧ (7 : Byte).toNat = (7 : Fin 8).val ∧
    (0 : Byte).toNat = (0 : Fin 8).val ∧ (start 253 [] []).pc.toNat ≤ 253 := by decide

/-- The count clause at 8 and at 255. -/
theorem witness_ShiftsTakeTheWholeByteAsCount :
    7 < (8 : Byte).toNat ∧ (7 : Byte).toNat ≤ 7 ∧ (7 : Byte).toNat = (7 : Fin 8).val ∧
    (0 : Byte).toNat = (0 : Fin 8).val ∧ (start 253 [] []).pc.toNat ≤ 253 ∧
    8 ≤ ((start 253 [] [(0, 8)]).reg 0).toNat ∧ 8 ≤ ((start 253 [] [(0, 255)]).reg 0).toNat := by decide

/-- Divisor 0 and divisor 1. -/
theorem witness_ModIsTheUnsignedRemainder :
    7 < (8 : Byte).toNat ∧ (7 : Byte).toNat ≤ 7 ∧ (7 : Byte).toNat = (7 : Fin 8).val ∧
    (0 : Byte).toNat = (0 : Fin 8).val ∧ (start 253 [] []).reg 0 = 0 ∧ (start 253 [] [(0, 1)]).reg 0 ≠ 0 ∧
    (start 253 [] [(0, 1)]).pc.toNat ≤ 253 := by decide

/-- The three orders of the operands. -/
theorem witness_CmpReplacesTheFlags :
    7 < (8 : Byte).toNat ∧ (7 : Byte).toNat ≤ 7 ∧ (7 : Byte).toNat = (7 : Fin 8).val ∧
    (0 : Byte).toNat = (0 : Fin 8).val ∧ (start 253 [] []).pc.toNat ≤ 253 ∧
    ((start 253 [] [(0, 0xF4)]).reg 7).toNat = ((start 253 [] [(0, 0xF4)]).reg 0).toNat ∧
    ((start 253 [] [(0, 0xF3)]).reg 7).toNat > ((start 253 [] [(0, 0xF3)]).reg 0).toNat ∧
    ((start 253 [] [(0, 0xF5)]).reg 7).toNat < ((start 253 [] [(0, 0xF5)]).reg 0).toNat := by decide

theorem witness_PushDecrementsThenStores :
    7 < (8 : Byte).toNat ∧ (7 : Byte).toNat = (7 : Fin 8).val ∧ (6 : Byte).toNat = (6 : Fin 8).val ∧
    (start 253 [0x45, 7] [(7, 0)]).pc.toNat ≤ 253 ∧ (start 253 [0x45, 7] [(7, 0)]).mem.wf = true := by decide

theorem witness_CallStoresTheReturnAddress :
    7 < (8 : Byte).toNat ∧ (7 : Byte).toNat = (7 : Fin 8).val ∧ (6 : Byte).toNat = (6 : Fin 8).val ∧
    (start 253 [0x50, 7] [(7, 0)]).pc.toNat ≤ 253 ∧ (start 253 [0x50, 7] [(7, 0)]).mem.wf = true := by decide

theorem witness_SameRegisterTwice :
    (7 : Byte).toNat = (7 : Fin 8).val ∧ (∃ t, exec (.mod 7 7) State.reset = .next t) ∧
    (∃ t, exec (.add 7 7) State.reset = .next t) ∧ (∃ t, exec (.cmp 7 7) State.reset = .next t) ∧
    (∃ t, exec (.shr 7 7) State.reset = .next t) := ⟨rfl, ⟨_, rfl⟩, ⟨_, rfl⟩, ⟨_, rfl⟩, ⟨_, rfl⟩⟩

theorem witness_FlagsWrittenByCmpReadByJumps :
    (∃ t, exec (.cmp 0 0) State.reset = .next t ∧ t.fl ≠ State.reset.fl) ∧
    (∃ f, exec (.cmp 7 8) State.reset = .fault f) ∧
    (∀ a, Instr.ret ≠ .jeq a) ∧ (∀ a, Instr.ret ≠ .jne a) ∧ (∀ a b, Instr.ret ≠ .cmp a b) :=
  ⟨⟨_, rfl, by decide⟩, ⟨_, rfl⟩, by simp, by simp, by simp⟩

theorem witness_OnlyPushAndCallWriteMemory :
    ∃ t, exec (.push 0) State.reset = .next t ∧ 0xF2 ∉ storedAddresses (.push 0) State.reset ∧
      0xF4 ∉ storedAddresses (.push 0) State.reset := ⟨_, rfl, by decide, by decide⟩

theorem witness_OutputGrowsByPrintsOnly : ∃ t, exec (.prn 7) State.reset = .next t := ⟨_, rfl⟩

theorem witness_RegistersWrittenAreThoseOfTheTable :
    ∃ t, exec (.pop 5) State.reset = .next t ∧ (∀ a ∈ writtenOperand (.pop 5), a.toNat ≠ (6 : Fin 8).val) ∧
      (usesStack (.pop 5) = true → (6 : Fin 8) ≠ 7) := ⟨_, rfl, by decide, by decide⟩

/-- Register 5 with an instruction that names 6 and 7, and register 7 with one that does not use the stack. -/
theorem witness_UnnamedRegistersHaveNoEffect :
    (∀ a ∈ (Instr.add 6 7).registerOperands, a.toNat ≠ (5 : Fin 8).val) ∧
    (∀ a ∈ (Instr.add 6 5).registerOperands, a.toNat ≠ (7 : Fin 8).val) ∧ usesStack (.add 6 5) = false := by decide

theorem witness_NextPcIsThatOfTheTable :
    decodeWith swappedMap (bytesAtPc (start 253 [0x55, 0] [])) = .ok (.jeq 0) ∧
    ∃ t, stepWith swappedMap (start 253 [0x55, 0] []) = .next t :=
  ⟨rfl, _, rfl⟩

theorem witness_RunStateTransitions :
    swappedMap.Admissible ∧ (∃ t, stepWith swappedMap (start 253 [0x01] []) = .next t) ∧
    (∃ t, stepWith swappedMap (start 253 [0x11] []) = .next t) ∧
    (∃ t, stepWith swappedMap State.reset = .fault (.raised .illegalInstruction 0 t)) ∧
    ({ State.reset with run := .halted } : State).run ≠ .running ∧
    ({ State.reset with run := .faulted } : State).run ≠ .running :=
  ⟨witness_DecodeOfEncodeIsTheInstruction, ⟨_, rfl⟩, ⟨_, rfl⟩, ⟨_, rfl⟩, by decide, by decide⟩

theorem witness_StepKeepsTheInvariant :
    (start 253 [0xA7, 0, 0] []).Inv ∧ ∃ t, step (start 253 [0xA7, 0, 0] []) = .next t :=
  ⟨⟨by decide, by decide, by decide, by decide⟩, _, rfl⟩

theorem witness_FaultKeepsTheInvariant :
    (start 256 [] []).Inv ∧ ∃ t, step (start 256 [] []) = .fault (.raised .outOfRangeAddress 256 t) :=
  ⟨⟨by decide, by decide, by decide, by decide⟩, _, rfl⟩

/-- Vector S4c at its bytes, at the end of the range of `pc`. -/
theorem witness_PushThenPopRestores :
    let s := start 251 [0x45, 0, 0x46, 0] [(0, 0x5A)]
    swappedMap.Admissible ∧ (0 : Byte).toNat = (0 : Fin 8).val ∧ s.mem.wf = true ∧ s.run = .running ∧
    s.pc.toNat ≤ 251 ∧ s.mem.read s.pc.toNat = swappedMap .push ∧ s.mem.read (s.pc.toNat + 1) = 0 ∧
    s.mem.read (s.pc.toNat + 2) = swappedMap .pop ∧ s.mem.read (s.pc.toNat + 3) = 0 ∧
    s.decSp.sp.toNat ≠ s.pc.toNat + 2 ∧ s.decSp.sp.toNat ≠ s.pc.toNat + 3 :=
  ⟨witness_DecodeOfEncodeIsTheInstruction, by decide⟩

/-- The same for register 7. -/
theorem witness_PushThenPopRestores_register_7 :
    let s := start 0 [0x45, 7, 0x46, 7] []
    swappedMap.Admissible ∧ (7 : Byte).toNat = (7 : Fin 8).val ∧ s.mem.wf = true ∧ s.run = .running ∧
    s.pc.toNat ≤ 251 ∧ s.mem.read s.pc.toNat = swappedMap .push ∧ s.mem.read (s.pc.toNat + 1) = 7 ∧
    s.mem.read (s.pc.toNat + 2) = swappedMap .pop ∧ s.mem.read (s.pc.toNat + 3) = 7 ∧
    s.decSp.sp.toNat ≠ s.pc.toNat + 2 ∧ s.decSp.sp.toNat ≠ s.pc.toNat + 3 :=
  ⟨witness_DecodeOfEncodeIsTheInstruction, by decide⟩

/-- Vector S4d: CALL R1 at 8 with R1 = 20, RET at 20. -/
def callState : State := (start 8 [0x50, 1] [(1, 20)]).poke 20 0x11

theorem witness_CallThenRetReturns :
    swappedMap.Admissible ∧ callState.mem.wf = true ∧
    callState.mem.read callState.pc.toNat = swappedMap .call ∧
    ∃ s1 t, stepWith swappedMap callState = .next s1 ∧ s1.mem.read s1.pc.toNat = swappedMap .ret ∧
      stepWith swappedMap s1 = .next t ∧ s1.sp = callState.decSp.sp ∧
      s1.mem.read callState.decSp.sp.toNat = s1.mem.read callState.decSp.sp.toNat :=
  ⟨witness_DecodeOfEncodeIsTheInstruction, by decide, by decide, _, _, rfl, by decide, rfl, by decide, rfl⟩

theorem witness_MemoryAccessPrimitives : 255 < 256 ∧ 255 ≤ 255 ∧ State.reset.mem.wf = true := by decide

theorem witness_CanonicalMemoriesThatReadAlikeAreEqual :
    Memory.wf [(0, 1), (255, 2)] = true ∧ ∀ x, Memory.read [(0, 1), (255, 2)] x = Memory.read [(0, 1), (255, 2)] x :=
  ⟨by decide, fun _ => rfl⟩

theorem witness_LoadedImageGivesTheStartState :
    (List.replicate 256 (0x01 : Byte)).length ≤ 256 ∧ 257 ≤ (List.replicate 257 (0x01 : Byte)).length :=
  ⟨List.length_replicate.le, List.length_replicate.ge⟩

/-- Each clause: a token of one digit, of value 255 with leading zeros, and of value 256. -/
theorem witness_LoaderTokensAreBytes :
    (∃ c ∈ ['1', '2'], c ≠ '0' ∧ c ≠ '1') ∧
    255 < binaryValue ['1', '0', '0', '0', '0', '0', '0', '0', '0'] ∧ '#' ∉ ['1', ' '] ∧
    (∀ c ∈ ['1'], c = '0' ∨ c = '1') ∧ binaryValue ['1'] ≤ 255 ∧
    binaryValue ['0', '0', '1', '1', '1', '1', '1', '1', '1', '1'] ≤ 255 :=
  ⟨⟨'2', by decide⟩, by decide, by decide, by simp, by decide, by simp [binaryValue]⟩

/-- The clauses on lines: a token with a blank inside, the empty token, a blank line and a comment line, and lines that
give a byte and that are refused. -/
theorem witness_LoaderTokensAreBytes_lines :
    (∀ c ∈ [' ', '\t'] ++ [' '], c.isWhitespace = true) ∧
    (∀ c, ['1', ' ', '0'].head? = some c → c.isWhitespace = false) ∧
    (∀ c, ['1', ' ', '0'].getLast? = some c → c.isWhitespace = false) ∧
    (∀ c, ([] : List Char).head? = some c → c.isWhitespace = false) ∧
    lineToken [' '] = [] ∧ lineToken ['#', '1'] = [] ∧
    lineToken [' ', '1'] ≠ [] ∧ parseToken (lineToken [' ', '1']) = .ok 1 ∧
    parseProgram [[' ', '1'], []] = .ok [1] ∧
    lineToken ['2'] ≠ [] ∧ parseToken (lineToken ['2']) = .error .programLoadError ∧ ['2'] ∈ [['1'], ['2']] :=
  ⟨List.all_eq_true.1 rfl, by rintro c ⟨⟩; rfl, by rintro c ⟨⟩; rfl, by simp, rfl, rfl, by decide, rfl, rfl, by decide,
    rfl, by decide⟩

theorem witness_PlacedWordIsRunNext :
    (start 253 [] []).run = .running ∧ (start 253 [] []).pc.toNat ≤ 253 ∧ (start 253 [] []).mem.wf = true := by decide

end Sys2Proof.Tests
end

section
/-!
PROOFS. What every instruction has in common in the fields that 10_state.md gives rules for. First the fields `pc`,
`fl`, `out`, `run` and `fault` of the state an instruction retires in; then the changes of a state that an instruction
does not see. The obligations FlagsWrittenByCmpReadByJumps, OutputGrowsByPrintsOnly and NextPcIsThatOfTheTable follow.
-/

namespace Sys2Proof.Machine

open Sys2Proof.Claims

/-! ### The values that the table of 10_state.md R28 is made of -/

@[simp] theorem zext9_toNat (v : Byte) : (zext9 v).toNat = v.toNat := by
  have := v.isLt
  simp only [zext9, BitVec.toNat_ofNat]
  omega

theorem namedRegister_of_val {a : Byte} {r : Fin 8} (h : a.toNat = r.val) (s : State) :
    namedRegister s a = s.reg r := by
  simp [namedRegister, h]

/-- Where a fetch succeeded the advance does not wrap (10_state.md R29). -/
theorem State.advance_pc_toNat {s : State} {n : Nat} (hpc : s.pc.toNat ≤ 253) (hn : n ≤ 2) :
    (s.advance n).pc.toNat = s.pc.toNat + (n + 1) := by
  simp only [State.advance_pc, BitVec.toNat_add, BitVec.toNat_ofNat]
  omega

/-- The target of CALL is read after the decrement, which register 7 alone shows (44_control_transfer.md R181). -/
theorem State.decSp_reg_toNat {a : Byte} {r : Fin 8} (h : a.toNat = r.val) (s : State) :
    (s.decSp.reg r).toNat = if a = 7 then (s.sp.toNat + 255) % 256 else (namedRegister s a).toNat := by
  by_cases hr : r = 7
  · subst hr
    have ha : a = 7 := BitVec.eq_of_toNat_eq h
    rw [if_pos ha, State.reg_spIndex, State.decSp_sp]
  · have ha : a ≠ 7 := by
      rintro rfl
      exact hr (Fin.ext h.symm)
    rw [if_neg ha, State.decSp_reg_of_ne s r hr, namedRegister_of_val h]

/-! ### The fields of the state that an instruction retires in -/

/-- What retiring `i` from `s` in `t` says of the fields beside memory and the registers. -/
structure Retires (i : Instr) (s t : State) : Prop where
  pc : s.pc.toNat ≤ 253 → t.pc.toNat = nextPc i s
  fl : (∀ a b, i ≠ .cmp a b) → t.fl = s.fl
  out : t.out = s.out ++ emittedEvents i s
  run : t.run = if i = .hlt then .halted else s.run
  fault : t.fault = s.fault

section Forms

variable {i : Instr} {s t u : State} {a b : Byte}

/-- The advance of a state `u` in which the instruction's own effect has been made. -/
theorem retires_advance {n : Nat} (hn : n ≤ 2) (hnext : nextPc i s = s.pc.toNat + (n + 1)) (hhlt : i ≠ .hlt)
    (hpc : u.pc = s.pc) (hfl : (∀ a b, i ≠ .cmp a b) → u.fl = s.fl) (hout : u.out = s.out ++ emittedEvents i s)
    (hrun : u.run = s.run) (hfault : u.fault = s.fault) : Retires i s (u.advance n) where
  pc h := by rw [State.advance_pc_toNat (hpc ▸ h) hn, hpc, hnext]
  fl := hfl
  out := hout
  run := by rw [if_neg hhlt]; exact hrun
  fault := hfault

/-- The advance after a register write. -/
theorem retires_setReg_advance {n : Nat} (d : Fin 8) (v : Byte) (hn : n ≤ 2)
    (hnext : nextPc i s = s.pc.toNat + (n + 1)) (hhlt : i ≠ .hlt) (hout : emittedEvents i s = []) :
    Retires i s ((s.setReg d v).advance n) :=
  retires_advance hn hnext hhlt rfl (fun _ => rfl) (by simp [hout]) rfl rfl

theorem retires_writeBinary {f : Byte → Byte → Byte} (hnext : nextPc i s = s.pc.toNat + 3) (hhlt : i ≠ .hlt)
    (hout : emittedEvents i s = []) (h : settle s (writeBinary f a b s) = .next t) : Retires i s t := by
  obtain ⟨d, r, -, -, rfl⟩ := writeBinary_ok_iff.1 (settle_next_iff.1 h)
  exact retires_setReg_advance d _ le_rfl hnext hhlt hout

theorem retires_writeUnary {f : Byte → Byte} (hnext : nextPc i s = s.pc.toNat + 2) (hhlt : i ≠ .hlt)
    (hout : emittedEvents i s = []) (h : settle s (writeUnary f a s) = .next t) : Retires i s t := by
  obtain ⟨d, -, rfl⟩ := writeUnary_ok_iff.1 (settle_next_iff.1 h)
  exact retires_setReg_advance d _ (by decide) hnext hhlt hout

theorem retires_emitRegister {event : Byte → OutEvent} (hnext : nextPc i s = s.pc.toNat + 2) (hhlt : i ≠ .hlt)
    (hout : emittedEvents i s = [event (namedRegister s a)]) (h : settle s (emitRegister event a s) = .next t) :
    Retires i s t := by
  obtain ⟨r, ha, rfl⟩ := emitRegister_ok_iff.1 (settle_next_iff.1 h)
  exact retires_advance (by decide) hnext hhlt rfl (fun _ => rfl) (by simp [hout, namedRegister_of_val ha]) rfl rfl

theorem retires_jumpIf {taken : Bool}
    (hnext : nextPc i s = if taken then (namedRegister s a).toNat else s.pc.toNat + 2) (hhlt : i ≠ .hlt)
    (hout : emittedEvents i s = []) (h : settle s (jumpIf taken a s) = .next t) : Retires i s t := by
  obtain ⟨r, ha, rfl⟩ := jumpIf_ok_iff.1 (settle_next_iff.1 h)
  cases taken with
  | false => exact retires_advance (by decide) hnext hhlt rfl (fun _ => rfl) (by simp [hout]) rfl rfl
  | true =>
    exact {
      pc := fun _ => by simp [hnext, namedRegister_of_val ha]
      fl := fun _ => rfl
      out := by simp [hout]
      run := by simp [hhlt]
      fault := rfl }

end Forms

/-- Every instruction that answers a next state retires in it as the tables of 10_state.md say. -/
theorem retires_of_exec_next {i : Instr} {s t : State} (h : exec i s = .next t) : Retires i s t := by
  cases i with
  | hlt =>
    cases h
    exact ⟨fun hpc => State.advance_pc_toNat (n := 0) hpc (by decide), fun _ => rfl, by simp [emittedEvents], rfl,
      rfl⟩
  | ldi a imm =>
    obtain ⟨d, -, rfl⟩ := execLdi_next_iff.1 h
    exact retires_setReg_advance d imm le_rfl rfl nofun rfl
  | prn a => exact retires_emitRegister rfl nofun rfl h
  | pra a => exact retires_emitRegister rfl nofun rfl h
  | add a b => exact retires_writeBinary rfl nofun rfl h
  | sub a b => exact retires_writeBinary rfl nofun rfl h
  | mul a b => exact retires_writeBinary rfl nofun rfl h
  | mod a b =>
    obtain ⟨d, r, -, -, -, rfl⟩ := execMod_next_iff.1 h
    exact retires_setReg_advance d _ le_rfl rfl nofun rfl
  | inc a => exact retires_writeUnary rfl nofun rfl h
  | dec a => exact retires_writeUnary rfl nofun rfl h
  | cmp a b =>
    obtain ⟨p, q, -, -, rfl⟩ := execCmp_next_iff.1 h
    exact retires_advance le_rfl rfl nofun rfl (fun hne => absurd rfl (hne a b)) (by simp [emittedEvents]) rfl rfl
  | and a b => exact retires_writeBinary rfl nofun rfl h
  | or a b => exact retires_writeBinary rfl nofun rfl h
  | xor a b => exact retires_writeBinary rfl nofun rfl h
  | not a => exact retires_writeUnary rfl nofun rfl h
  | shl a b => exact retires_writeBinary rfl nofun rfl h
  | shr a b => exact retires_writeBinary rfl nofun rfl h
  | push a =>
    obtain ⟨r, -, rfl⟩ := execPush_next_iff.1 h
    exact retires_advance (by decide) rfl nofun rfl (fun _ => rfl) (by simp [emittedEvents]) rfl rfl
  | pop a =>
    obtain ⟨d, -, rfl⟩ := execPop_next_iff.1 h
    exact retires_advance (by decide) rfl nofun rfl (fun _ => rfl) (by simp [emittedEvents]) rfl rfl
  | call a =>
    obtain ⟨r, ha, rfl⟩ := execCall_next_iff.1 h
    exact ⟨fun _ => (zext9_toNat _).trans (State.decSp_reg_toNat ha s), fun _ => rfl, by simp [emittedEvents], rfl,
      rfl⟩
  | ret =>
    cases (execRet_eq s).symm.trans h
    exact ⟨fun _ => zext9_toNat _, fun _ => rfl, by simp [emittedEvents], rfl, rfl⟩
  | jmp a => exact retires_jumpIf rfl nofun rfl h
  | jeq a => exact retires_jumpIf (by simp [nextPc, jeqTaken]) nofun rfl h
  | jne a => exact retires_jumpIf (by simp [nextPc, jneTaken]) nofun rfl h

/-! ### Changes of a state that an instruction does not see -/

/-- The registers an instruction reads or writes: those its operands name, and register 7 for the stack instructions
(10_state.md R22, R25). -/
def UsesRegister (i : Instr) (d : Fin 8) : Prop :=
  (∃ a ∈ i.registerOperands, a.toNat = d.val) ∨ (usesStack i = true ∧ d = 7)

/-- The instructions that read or write the flags (10_state.md R31). -/
def UsesFlags (i : Instr) : Prop := (∃ a b, i = .cmp a b) ∨ (∃ a, i = .jeq a) ∨ ∃ a, i = .jne a

/-- The change `f` of a state is outside all that `i` uses: what `i` reads is as before, and what `i` writes can as well
be written before the change. -/
structure Unseen (i : Instr) (f : State → State) : Prop where
  mem : ∀ s, (f s).mem = s.mem
  pc : ∀ s, (f s).pc = s.pc
  reg : ∀ s d, UsesRegister i d → (f s).reg d = s.reg d
  fl : ∀ s, UsesFlags i → (f s).fl = s.fl
  setMem : ∀ s m, { f s with mem := m } = f { s with mem := m }
  setPc : ∀ s p, { f s with pc := p } = f { s with pc := p }
  setReg : ∀ s d v, UsesRegister i d → (f s).setReg d v = f (s.setReg d v)
  setFl : ∀ s v, UsesFlags i → { f s with fl := v } = f { s with fl := v }
  emit : ∀ s e, (f s).emit e = f (s.emit e)
  halt : ∀ s, { f s with run := .halted } = f { s with run := .halted }
  faultedWith : ∀ s r, (f s).faultedWith r = f (s.faultedWith r)

section Unseen

variable {i : Instr} {f : State → State} {s : State} {a b : Byte}

theorem usesRegister_of_mem (h : a ∈ i.registerOperands) {d : Fin 8} (hd : a.toNat = d.val) : UsesRegister i d :=
  .inl ⟨a, h, hd⟩

theorem usesRegister_sp (h : usesStack i = true) : UsesRegister i 7 := .inr ⟨h, rfl⟩

/-! #### the state's operations -/

theorem Unseen.advance_comm (hf : Unseen i f) (s : State) (n : Nat) : (f s).advance n = f (s.advance n) := by
  simp only [State.advance, hf.pc, hf.setPc]

theorem Unseen.jumpTo_comm (hf : Unseen i f) (s : State) (v : Byte) : (f s).jumpTo v = f (s.jumpTo v) := hf.setPc s _

theorem Unseen.sp_eq (hf : Unseen i f) (hi : usesStack i = true) (s : State) : (f s).sp = s.sp :=
  hf.reg s 7 (usesRegister_sp hi)

theorem Unseen.decSp_comm (hf : Unseen i f) (hi : usesStack i = true) (s : State) : (f s).decSp = f s.decSp := by
  rw [State.decSp, hf.sp_eq hi, hf.setReg s _ _ (usesRegister_sp hi), State.decSp]

theorem Unseen.incSp_comm (hf : Unseen i f) (hi : usesStack i = true) (s : State) : (f s).incSp = f s.incSp := by
  rw [State.incSp, hf.sp_eq hi, hf.setReg s _ _ (usesRegister_sp hi), State.incSp]

/-! #### attempts -/

/-- The register check does not look at the state, so the change passes it. -/
theorem regIndex_bind_map {k k' : Fin 8 → Attempt State} (h : ∀ d : Fin 8, a.toNat = d.val → k' d = (k d).map f) :
    (regIndex a >>= k') = (regIndex a >>= k).map f := by
  cases hr : regIndex a with
  | ok d => simpa using h d (regIndex_ok_iff.1 hr)
  | error r => rfl

theorem Unseen.storeAtSp_bind_map (hf : Unseen i f) (hi : usesStack i = true) {k k' : State → Attempt State}
    (h : ∀ t, k' (f t) = (k t).map f) {v : Byte} : (storeAtSp (f s) v >>= k') = (storeAtSp s v >>= k).map f := by
  simp only [storeAtSp_eq, hf.mem, hf.sp_eq hi, hf.setMem, attempt_ok_bind, h]

theorem Unseen.settle_eq_mapState (hf : Unseen i f) {x' x : Attempt State} (h : x' = x.map f) :
    settle (f s) x' = mapState f (settle s x) := by
  subst h
  cases x with
  | ok t => rfl
  | error r => simp [Except.map, raise, mapState, hf.faultedWith]

theorem Unseen.writeBinary_eq_map (hf : Unseen i f) (hops : i.registerOperands = [a, b]) (g : Byte → Byte → Byte) :
    writeBinary g a b (f s) = (writeBinary g a b s).map f := by
  refine regIndex_bind_map fun d hd => regIndex_bind_map fun r hr => ?_
  have hud : UsesRegister i d := usesRegister_of_mem (by simp [hops]) hd
  have hur : UsesRegister i r := usesRegister_of_mem (by simp [hops]) hr
  simp only [hf.reg s d hud, hf.reg s r hur, hf.setReg s d _ hud, hf.advance_comm, attempt_pure, Except.map]

theorem Unseen.writeUnary_eq_map (hf : Unseen i f) (hops : i.registerOperands = [a]) (g : Byte → Byte) :
    writeUnary g a (f s) = (writeUnary g a s).map f := by
  refine regIndex_bind_map fun d hd => ?_
  have hud : UsesRegister i d := usesRegister_of_mem (by simp [hops]) hd
  simp only [hf.reg s d hud, hf.setReg s d _ hud, hf.advance_comm, attempt_pure, Except.map]

theorem Unseen.emitRegister_eq_map (hf : Unseen i f) (hops : i.registerOperands = [a]) (event : Byte → OutEvent) :
    emitRegister event a (f s) = (emitRegister event a s).map f := by
  refine regIndex_bind_map fun r hr => ?_
  have hur : UsesRegister i r := usesRegister_of_mem (by simp [hops]) hr
  simp only [hf.reg s r hur, hf.emit, hf.advance_comm, attempt_pure, Except.map]

theorem Unseen.jumpIf_eq_map (hf : Unseen i f) (hops : i.registerOperands = [a]) (taken : Bool) :
    jumpIf taken a (f s) = (jumpIf taken a s).map f := by
  refine regIndex_bind_map fun r hr => ?_
  have hur : UsesRegister i r := usesRegister_of_mem (by simp [hops]) hr
  cases taken with
  | false => simp [hf.advance_comm, Except.map]
  | true => simp [hf.reg s r hur, hf.jumpTo_comm, Except.map]

/-! #### the handlers that are no operand form -/

theorem Unseen.execHlt_eq_mapState (hf : Unseen .hlt f) : execHlt (f s) = mapState f (execHlt s) := by
  simp only [execHlt, hf.advance_comm, hf.halt, mapState]

theorem Unseen.execLdi_eq_mapState {imm : Byte} (hf : Unseen (.ldi a imm) f) :
    execLdi a imm (f s) = mapState f (execLdi a imm s) := by
  refine hf.settle_eq_mapState (regIndex_bind_map fun d hd => ?_)
  have hud : UsesRegister (.ldi a imm) d := usesRegister_of_mem (.head _) hd
  simp only [hf.setReg s d _ hud, hf.advance_comm, attempt_pure, Except.map]

theorem Unseen.execMod_eq_mapState (hf : Unseen (.mod a b) f) : execMod a b (f s) = mapState f (execMod a b s) := by
  refine hf.settle_eq_mapState (regIndex_bind_map fun d hd => regIndex_bind_map fun r hr => ?_)
  have hud : UsesRegister (.mod a b) d := usesRegister_of_mem (.head _) hd
  have hur : UsesRegister (.mod a b) r := usesRegister_of_mem (.tail _ (.head _)) hr
  simp only [hf.reg s r hur, hf.reg s d hud, hf.pc, hf.setReg s d _ hud, hf.advance_comm, attempt_throw, attempt_pure]
  by_cases hz : s.reg r = 0
  · rw [if_pos hz, if_pos hz, Except.map]
  · rw [if_neg hz, if_neg hz, Except.map]

theorem Unseen.execCmp_eq_mapState (hf : Unseen (.cmp a b) f) : execCmp a b (f s) = mapState f (execCmp a b s) := by
  refine hf.settle_eq_mapState (regIndex_bind_map fun p hp => regIndex_bind_map fun q hq => ?_)
  have hup : UsesRegister (.cmp a b) p := usesRegister_of_mem (.head _) hp
  have huq : UsesRegister (.cmp a b) q := usesRegister_of_mem (.tail _ (.head _)) hq
  have hfl : UsesFlags (.cmp a b) := .inl ⟨a, b, rfl⟩
  simp only [hf.reg s p hup, hf.reg s q huq, hf.setFl s _ hfl, hf.advance_comm, attempt_pure, Except.map]

theorem Unseen.execPush_eq_mapState (hf : Unseen (.push a) f) : execPush a (f s) = mapState f (execPush a s) := by
  refine hf.settle_eq_mapState (regIndex_bind_map fun r hr => ?_)
  have hur : UsesRegister (.push a) r := usesRegister_of_mem (.head _) hr
  simp only [hf.decSp_comm rfl, hf.reg _ r hur]
  exact hf.storeAtSp_bind_map rfl fun t => by simp only [hf.advance_comm, attempt_pure, Except.map]

theorem Unseen.execPop_eq_mapState (hf : Unseen (.pop a) f) : execPop a (f s) = mapState f (execPop a s) := by
  refine hf.settle_eq_mapState (regIndex_bind_map fun d hd => ?_)
  have hud : UsesRegister (.pop a) d := usesRegister_of_mem (.head _) hd
  simp only [loadAtSp_eq, hf.mem, hf.sp_eq rfl, attempt_ok_bind, hf.setReg s d _ hud, hf.incSp_comm rfl,
    hf.advance_comm, attempt_pure, Except.map]

theorem Unseen.execCall_eq_mapState (hf : Unseen (.call a) f) : execCall a (f s) = mapState f (execCall a s) := by
  refine hf.settle_eq_mapState (regIndex_bind_map fun r hr => ?_)
  have hur : UsesRegister (.call a) r := usesRegister_of_mem (.head _) hr
  simp only [hf.decSp_comm rfl, State.returnAddress, hf.pc]
  exact hf.storeAtSp_bind_map rfl fun t => by simp only [hf.reg t r hur, hf.jumpTo_comm, attempt_pure, Except.map]

theorem Unseen.execRet_eq_mapState (hf : Unseen .ret f) : execRet (f s) = mapState f (execRet s) := by
  simp only [execRet_eq, hf.mem, hf.sp_eq rfl, hf.jumpTo_comm, hf.incSp_comm rfl, mapState]

/-- A change that an instruction does not see is there in its outcome, and nothing else is changed. -/
theorem Unseen.exec_eq_mapState (hf : Unseen i f) (s : State) : exec i (f s) = mapState f (exec i s) := by
  cases i with
  | hlt => exact hf.execHlt_eq_mapState
  | ldi a imm => exact hf.execLdi_eq_mapState
  | prn a => exact hf.settle_eq_mapState (hf.emitRegister_eq_map rfl _)
  | pra a => exact hf.settle_eq_mapState (hf.emitRegister_eq_map rfl _)
  | add a b => exact hf.settle_eq_mapState (hf.writeBinary_eq_map rfl _)
  | sub a b => exact hf.settle_eq_mapState (hf.writeBinary_eq_map rfl _)
  | mul a b => exact hf.settle_eq_mapState (hf.writeBinary_eq_map rfl _)
  | mod a b => exact hf.execMod_eq_mapState
  | inc a => exact hf.settle_eq_mapState (hf.writeUnary_eq_map rfl _)
  | dec a => exact hf.settle_eq_mapState (hf.writeUnary_eq_map rfl _)
  | cmp a b => exact hf.execCmp_eq_mapState
  | and a b => exact hf.settle_eq_mapState (hf.writeBinary_eq_map rfl _)
  | or a b => exact hf.settle_eq_mapState (hf.writeBinary_eq_map rfl _)
  | xor a b => exact hf.settle_eq_mapState (hf.writeBinary_eq_map rfl _)
  | not a => exact hf.settle_eq_mapState (hf.writeUnary_eq_map rfl _)
  | shl a b => exact hf.settle_eq_mapState (hf.writeBinary_eq_map rfl _)
  | shr a b => exact hf.settle_eq_mapState (hf.writeBinary_eq_map rfl _)
  | push a => exact hf.execPush_eq_mapState
  | pop a => exact hf.execPop_eq_mapState
  | call a => exact hf.execCall_eq_mapState
  | ret => exact hf.execRet_eq_mapState
  | jmp a => exact hf.settle_eq_mapState (hf.jumpIf_eq_map rfl _)
  | jeq a =>
    have hfl : (f s).fl = s.fl := hf.fl s (.inr (.inl ⟨a, rfl⟩))
    exact hf.settle_eq_mapState (hfl ▸ hf.jumpIf_eq_map rfl _)
  | jne a =>
    have hfl : (f s).fl = s.fl := hf.fl s (.inr (.inr ⟨a, rfl⟩))
    exact hf.settle_eq_mapState (hfl ▸ hf.jumpIf_eq_map rfl _)

end Unseen

/-! ### The flags: 10_state.md R31 -/

/-- Other flags are unseen by an instruction that uses none. -/
theorem unseen_flags {i : Instr} (hi : ¬ UsesFlags i) (v : Byte) : Unseen i (fun t => { t with fl := v }) where
  mem _ := rfl
  pc _ := rfl
  reg _ _ _ := rfl
  fl _ h := absurd h hi
  setMem _ _ := rfl
  setPc _ _ := rfl
  setReg _ _ _ _ := rfl
  setFl _ _ h := absurd h hi
  emit _ _ := rfl
  halt _ := rfl
  faultedWith _ _ := rfl

/-- A CMP faults by its register checks alone, so the flags before it are those it leaves. -/
theorem execCmp_fault_flags {a b : Byte} {s : State} {e : Fault} (h : execCmp a b s = .fault e) (v : Byte) :
    execCmp a b { s with fl := v } = mapState (fun t => { t with fl := v }) (execCmp a b s) := by
  unfold execCmp at h ⊢
  cases ha : regIndex a with
  | error r => rfl
  | ok p =>
    cases hb : regIndex b with
    | error r => rfl
    | ok q => simp [ha, hb] at h

/-- Settles O31: the fields of a retiring instruction give the only writer, and flags unseen by an instruction that uses
none give the only readers. -/
theorem flagsWrittenByCmpReadByJumps : Obligations.FlagsWrittenByCmpReadByJumps := by
  refine ⟨fun i s t h hfl => ?_, fun i s v hjeq hjne hcmp => ?_, fun a b s t v h => ?_, fun a b s e v h => ?_⟩
  · by_contra hi
    exact hfl ((retires_of_exec_next h).fl fun a b hcmp => hi ⟨a, b, hcmp⟩)
  · have hi : ¬ UsesFlags i := by
      rintro (⟨a, b, h⟩ | ⟨a, h⟩ | ⟨a, h⟩)
      · exact hcmp a b h
      · exact hjeq a h
      · exact hjne a h
    exact (unseen_flags hi v).exec_eq_mapState s
  · obtain ⟨p, q, ha, hb, rfl⟩ := execCmp_next_iff.1 h
    exact execCmp_next_iff.2 ⟨p, q, ha, hb, rfl⟩
  · exact execCmp_fault_flags h v

/-! ### The output: 10_state.md R35 -/

/-- Events before the earlier output are unseen by every instruction. -/
theorem unseen_earlierOutput (i : Instr) (earlier : List OutEvent) :
    Unseen i (fun t => { t with out := earlier ++ t.out }) where
  mem _ := rfl
  pc _ := rfl
  reg _ _ _ := rfl
  fl _ _ := rfl
  setMem _ _ := rfl
  setPc _ _ := rfl
  setReg _ _ _ _ := rfl
  setFl _ _ _ := rfl
  emit s e := by simp [State.emit]
  halt _ := rfl
  faultedWith _ _ := rfl

/-- Settles O33: the events appended are those of the retiring instruction, and earlier output is unseen. -/
theorem outputGrowsByPrintsOnly : Obligations.OutputGrowsByPrintsOnly :=
  ⟨rfl, fun _ _ _ h => (retires_of_exec_next h).out,
    fun i s earlier => (unseen_earlierOutput i earlier).exec_eq_mapState s⟩

/-! ### The program counter: 10_state.md R28 -/

/-- Settles O36: a step that answers a next state fetched at 253 or below and ran the decoded instruction, so its
program counter is that of the retiring instruction. -/
theorem nextPcIsThatOfTheTable : Obligations.NextPcIsThatOfTheTable := by
  intro map s t i hdec hstep
  obtain ⟨-, j, hfetch, hexec⟩ := stepWith_next_iff.1 hstep
  obtain ⟨hpc, hdec'⟩ := fetchInstr_ok_iff.1 hfetch
  obtain rfl : i = j := Except.ok.inj (hdec.symm.trans hdec')
  have hret := retires_of_exec_next hexec
  exact ⟨hret.pc hpc, fun hi => hret.run.trans (if_pos hi)⟩

end Sys2Proof.Machine
end

section
/-!
PROOFS. The opcode of a mnemonic selects its instruction under every admissible map (30_encoding.md R94), and the
obligation HltAdvancesThenHalts.
-/

namespace Sys2Proof.Machine

open Sys2Proof.Claims

theorem selects_withOperands (m : Mnemonic) : Selects m m.withOperands :=
  fun _ hmap _ _ => decodeWith_ok_iff.2 ⟨m, (OpcodeMap.lookup_some_iff hmap.injective).2 rfl, rfl⟩

/-- The state HLT retires in: the advance, then the halt check (40_sequencer.md R117). -/
theorem exec_hlt_eq (s : State) : exec .hlt s = .next { s.advance 0 with run := .halted } := rfl

/-- Settles O14: the advance by one does not wrap from a `pc` of at most 253, and neither it nor the halt check writes
anything but `pc` and `run`. -/
theorem hltAdvancesThenHalts : Obligations.HltAdvancesThenHalts := by
  refine ⟨selects_withOperands .hlt, fun x y => decodeWith_ok_iff.2 ⟨.hlt, rfl, rfl⟩, fun s hpc => ?_⟩
  have hadvance : (s.advance 0).pc.toNat = s.pc.toNat + 1 := State.advance_pc_toNat hpc (Nat.zero_le 2)
  exact ⟨_, exec_hlt_eq s, hadvance, rfl, fun _ => rfl, rfl, fun _ => rfl, rfl, rfl⟩

end Sys2Proof.Machine
end

section
/-!
PROOFS. The register check in front of a handler, the frame of one register write, and the obligations of
41_data_move_and_output.md: LdiLoadsTheImmediateByte and PrintsEmitOneEvent.
-/

namespace Sys2Proof.Machine

open Sys2Proof.Claims

/-- A handler that begins with a register check raises for a byte that names none, whatever follows it
(30_encoding.md R83). -/
theorem settle_regIndex_of_large {a : Byte} (h : 7 < a.toNat) (s : State) (k : Fin 8 → Attempt State) :
    settle s (regIndex a >>= k) = faultOf s .outOfRangeAddress a.toNat := by
  rw [regIndex_of_large h, attempt_error_bind]
  rfl

/-- The frame of a register write followed by the advance of an instruction of `n + 1` bytes. -/
theorem onlyRegisterWritten_setReg_advance {s : State} {n : Nat} (d : Fin 8) (v : Byte) (hpc : s.pc.toNat ≤ 253)
    (hn : n ≤ 2) : OnlyRegisterWritten d (n + 1) s ((s.setReg d v).advance n) :=
  ⟨fun q hq => State.reg_setReg_of_ne s d q v hq, State.advance_pc_toNat (s := s.setReg d v) hpc hn, rfl, fun _ => rfl,
    rfl, rfl, rfl⟩

/-- Settles O15: the one check is that of `a`, and past it the immediate is written and `pc` advances by 3. -/
theorem ldiLoadsTheImmediateByte : Obligations.LdiLoadsTheImmediateByte := by
  refine ⟨selects_withOperands .ldi, fun a imm => decodeWith_ok_iff.2 ⟨.ldi, rfl, rfl⟩,
    fun a imm s ha => settle_regIndex_of_large ha s _, fun a imm d s ha hpc => ?_⟩
  exact ⟨_, execLdi_next_iff.2 ⟨d, ha, rfl⟩, State.reg_setReg_self s d imm,
    onlyRegisterWritten_setReg_advance d imm hpc le_rfl⟩

/-- An instruction whose handler is the emitting form follows the rule of the prints. -/
theorem emitRule_of_emitRegister {m : Mnemonic} {mk : Byte → Instr} {event : Byte → OutEvent}
    (hselects : Selects m (fun a _ => mk a)) (hexec : ∀ a s, exec (mk a) s = settle s (emitRegister event a s)) :
    EmitRule m mk event := by
  refine ⟨hselects, fun a s ha => (hexec a s).trans (settle_regIndex_of_large ha s _), fun a r s ha hpc => ?_⟩
  have hnext : exec (mk a) s = .next ((s.emit (event (s.reg r))).advance 1) :=
    (hexec a s).trans (settle_next_iff.2 (emitRegister_ok_iff.2 ⟨r, ha, rfl⟩))
  have hadvance : ((s.emit (event (s.reg r))).advance 1).pc.toNat = s.pc.toNat + 2 :=
    State.advance_pc_toNat (s := s.emit (event (s.reg r))) hpc (by decide)
  exact ⟨_, hnext, rfl, hadvance, fun _ => rfl, rfl, fun _ => rfl, rfl, rfl⟩

/-- Settles O16: PRN and PRA are the emitting form with the events `Num` and `Chr`. -/
theorem printsEmitOneEvent : Obligations.PrintsEmitOneEvent :=
  ⟨emitRule_of_emitRegister (selects_withOperands .prn) (fun _ _ => rfl),
    fun _ _ => decodeWith_ok_iff.2 ⟨.prn, rfl, rfl⟩,
    emitRule_of_emitRegister (selects_withOperands .pra) (fun _ _ => rfl)⟩

end Sys2Proof.Machine
end

section
/-!
PROOFS. The two operand forms of the ALU instructions that write register `a`, the values those instructions compute,
and the obligations AddAndMulWrapModulo256, IncAndDecWrap and AndOrNotActOnEachBit of 42_alu.md.
-/

namespace Sys2Proof.Machine

open Sys2Proof.Claims

/-! ### The operand forms -/

/-- An instruction whose handler is the two-register form follows the rule of its function: `b` is only checked once
`a` names a register (42_alu.md R158). -/
theorem twoRegisterRule_of_writeBinary {m : Mnemonic} {mk : Byte → Byte → Instr} {f : Byte → Byte → Byte}
    {value : Byte → Byte → Byte → Prop} (hselects : Selects m mk)
    (hexec : ∀ a b s, exec (mk a b) s = settle s (writeBinary f a b s)) (hvalue : ∀ x y, value x y (f x y)) :
    TwoRegisterRule m mk value := by
  refine ⟨hselects, fun a b s => ⟨fun ha => ?_, fun ha hb => ?_⟩, fun a b d r s ha hb hpc => ?_⟩
  · exact (hexec a b s).trans (settle_regIndex_of_large ha s _)
  · have hfirst : regIndex a = .ok ⟨a.toNat, by omega⟩ := regIndex_of_val rfl
    rw [hexec, writeBinary, hfirst, attempt_ok_bind]
    exact settle_regIndex_of_large hb s _
  · have hnext : exec (mk a b) s = .next ((s.setReg d (f (s.reg d) (s.reg r))).advance 2) :=
      (hexec a b s).trans (settle_next_iff.2 (writeBinary_ok_iff.2 ⟨d, r, ha, hb, rfl⟩))
    refine ⟨_, hnext, ?_, onlyRegisterWritten_setReg_advance d _ hpc le_rfl⟩
    rw [State.advance_reg, State.reg_setReg_self]
    exact hvalue _ _

/-- An instruction whose handler is the one-register form follows the rule of its function. -/
theorem oneRegisterRule_of_writeUnary {m : Mnemonic} {mk : Byte → Instr} {f : Byte → Byte}
    {value : Byte → Byte → Prop} (hselects : Selects m (fun a _ => mk a))
    (hexec : ∀ a s, exec (mk a) s = settle s (writeUnary f a s)) (hvalue : ∀ x, value x (f x)) :
    OneRegisterRule m mk value := by
  refine ⟨hselects, fun a s ha => (hexec a s).trans (settle_regIndex_of_large ha s _), fun a d s ha hpc => ?_⟩
  have hnext : exec (mk a) s = .next ((s.setReg d (f (s.reg d))).advance 1) :=
    (hexec a s).trans (settle_next_iff.2 (writeUnary_ok_iff.2 ⟨d, ha, rfl⟩))
  refine ⟨_, hnext, ?_, onlyRegisterWritten_setReg_advance d _ hpc (by decide)⟩
  rw [State.advance_reg, State.reg_setReg_self]
  exact hvalue _

/-! ### The values -/

/-- 00_scope.md R8. -/
theorem wrap8_toNat (v : Int) : ((wrap8 v).toNat : Int) = v % 256 := by
  simp only [wrap8, BitVec.toNat_ofInt]
  omega

/-- 00_scope.md R8, for what an operation on unsigned bytes gives without a borrow. -/
theorem wrap8_natCast_toNat (n : Nat) : (wrap8 n).toNat = n % 256 := by
  have := wrap8_toNat n
  omega

theorem aluAdd_toNat (x y : Byte) : (aluAdd x y).toNat = (x.toNat + y.toNat) % 256 :=
  wrap8_natCast_toNat (x.toNat + y.toNat)

theorem aluMul_toNat (x y : Byte) : (aluMul x y).toNat = x.toNat * y.toNat % 256 :=
  wrap8_natCast_toNat (x.toNat * y.toNat)

theorem aluInc_toNat (x : Byte) : (aluInc x).toNat = (x.toNat + 1) % 256 :=
  wrap8_natCast_toNat (x.toNat + 1)

theorem aluDec_toNat (x : Byte) : ((aluDec x).toNat : Int) = ((x.toNat : Int) - 1) % 256 :=
  wrap8_toNat _

theorem aluAnd_getLsbD (x y : Byte) (k : Nat) : (aluAnd x y).getLsbD k = (x.getLsbD k && y.getLsbD k) :=
  BitVec.getLsbD_and

theorem aluOr_getLsbD (x y : Byte) (k : Nat) : (aluOr x y).getLsbD k = (x.getLsbD k || y.getLsbD k) :=
  BitVec.getLsbD_or

theorem aluNot_toNat (x : Byte) : (aluNot x).toNat = 255 - x.toNat := by
  have hwrap : ((aluNot x).toNat : Int) = (255 - (x.toNat : Int)) % 256 := wrap8_toNat _
  have hx := x.isLt
  omega

/-- Subtracting a byte from 255 borrows nowhere, so it complements every bit. -/
theorem aluNot_eq_complement (x : Byte) : aluNot x = ~~~x := by
  apply BitVec.eq_of_toNat_eq
  rw [aluNot_toNat, BitVec.toNat_not]

theorem aluNot_getLsbD (x : Byte) {k : Nat} (hk : k < 8) : (aluNot x).getLsbD k = !x.getLsbD k := by
  rw [aluNot_eq_complement, BitVec.getLsbD_not, decide_eq_true hk, Bool.true_and]

/-! ### The obligations -/

/-- Settles O17: ADD and MUL are the two-register form, and `wrap8` of a natural number is its remainder by 256. -/
theorem addAndMulWrapModulo256 : Obligations.AddAndMulWrapModulo256 :=
  ⟨twoRegisterRule_of_writeBinary (selects_withOperands .add) (fun _ _ _ => rfl) aluAdd_toNat,
    twoRegisterRule_of_writeBinary (selects_withOperands .mul) (fun _ _ _ => rfl) aluMul_toNat⟩

/-- Settles O20: INC and DEC are the one-register form; the remainder of DEC is taken on the integers, where 0 - 1
wraps to 255. -/
theorem incAndDecWrap : Obligations.IncAndDecWrap :=
  ⟨oneRegisterRule_of_writeUnary (selects_withOperands .inc) (fun _ _ => rfl) aluInc_toNat,
    oneRegisterRule_of_writeUnary (selects_withOperands .dec) (fun _ _ => rfl) aluDec_toNat⟩

/-- Settles O22: AND and OR are the two-register form with the bitwise operations, and NOT is the one-register form
with the difference from 255, which is the bitwise complement. -/
theorem andOrNotActOnEachBit : Obligations.AndOrNotActOnEachBit :=
  ⟨twoRegisterRule_of_writeBinary (selects_withOperands .and) (fun _ _ _ => rfl)
      (fun x y k _ => aluAnd_getLsbD x y k),
    twoRegisterRule_of_writeBinary (selects_withOperands .or) (fun _ _ _ => rfl) (fun x y k _ => aluOr_getLsbD x y k),
    oneRegisterRule_of_writeUnary (selects_withOperands .not) (fun _ _ => rfl)
      (fun x => ⟨aluNot_toNat x, fun _ hk => aluNot_getLsbD x hk⟩)⟩

end Sys2Proof.Machine
end

section
/-!
PROOFS. The states that PUSH and POP retire in, and the obligations of 43_stack.md: PushDecrementsThenStores,
PopLoadsThenIncrements and PushThenPopRestores.
-/

namespace Sys2Proof.Machine

open Sys2Proof.Claims

/-! ### Writing back what is there -/

theorem State.setReg_reg_self (s : State) (i : Fin 8) : s.setReg i (s.reg i) = s := by
  have hregs : s.regs.set i s.regs[i] = s.regs := Vector.set_getElem_self i.isLt
  simp only [State.setReg, State.reg, hregs]

theorem State.setReg_setReg (s : State) (i : Fin 8) (v w : Byte) : (s.setReg i v).setReg i w = s.setReg i w := by
  simp only [State.setReg, Vector.set_set]

/-- The increment undoes the decrement, across the wrap too (10_state.md R25). -/
theorem State.incSp_decSp (s : State) : s.decSp.incSp = s := by
  have hsp : s.decSp.incSp.sp = s.sp := by
    apply BitVec.eq_of_toNat_eq
    have hlt := s.sp.isLt
    rw [State.incSp_sp, State.decSp_sp]
    omega
  calc s.decSp.incSp = s.decSp.setReg 7 s.decSp.incSp.sp := by
        rw [← State.reg_spIndex, State.incSp, State.reg_setReg_self]
    _ = s.decSp.setReg 7 (s.reg 7) := by rw [hsp, State.reg_spIndex]
    _ = s := by rw [State.decSp, State.setReg_setReg, State.setReg_reg_self]

/-! ### The state PUSH retires in -/

/-- PUSH of register `r`, past its check (43_stack.md R171). -/
def State.pushed (s : State) (r : Fin 8) : State :=
  { s.decSp with mem := s.mem.write s.decSp.sp.toNat (s.decSp.reg r) }.advance 1

section Pushed

variable {a : Byte} {r : Fin 8} {s : State}

theorem exec_push_eq (h : a.toNat = r.val) (s : State) : exec (.push a) s = .next (s.pushed r) :=
  execPush_next_iff.2 ⟨r, h, rfl⟩

theorem State.pushed_reg (q : Fin 8) : (s.pushed r).reg q = s.decSp.reg q := rfl

theorem State.pushed_sp : (s.pushed r).sp = s.decSp.sp := rfl

theorem State.pushed_pc_toNat (hpc : s.pc.toNat ≤ 253) : (s.pushed r).pc.toNat = s.pc.toNat + 2 :=
  State.advance_pc_toNat (s := { s.decSp with mem := _ }) hpc (by decide)

/-- The byte at the new stack pointer is the register as read after the decrement. -/
theorem State.pushed_read_sp (hwf : s.mem.wf = true) :
    (s.pushed r).mem.read s.decSp.sp.toNat = s.decSp.reg r := Memory.read_write_self hwf _ _

theorem State.pushed_keepsMemoryBut : KeepsMemoryBut s.decSp.sp.toNat s (s.pushed r) :=
  fun _ hx => Memory.read_write_other s.mem hx _

/-- For every register but the stack pointer the decrement does not show in the byte stored. -/
theorem State.pushed_read_sp_of_ne (hwf : s.mem.wf = true) (hr : r ≠ 7) :
    (s.pushed r).mem.read s.decSp.sp.toNat = s.reg r := by
  rw [State.pushed_read_sp hwf, State.decSp_reg_of_ne s r hr]

/-- For the stack pointer the byte stored is the decremented value. -/
theorem State.pushed_read_sp_of_eq (hwf : s.mem.wf = true) (hr : r = 7) :
    (s.pushed r).mem.read s.decSp.sp.toNat = s.decSp.sp := by
  rw [State.pushed_read_sp hwf, hr, State.reg_spIndex]

end Pushed

/-- Settles O24: the decrement writes register 7 alone, and the store after it the one cell at the new stack pointer,
where a canonical memory reads the byte back. -/
theorem pushDecrementsThenStores : Obligations.PushDecrementsThenStores := by
  refine ⟨selects_withOperands .push, fun a s ha => settle_regIndex_of_large ha s _, fun a r s ha hpc hwf => ?_⟩
  exact ⟨s.pushed r, exec_push_eq ha s, State.decSp_sp s, State.pushed_read_sp_of_ne hwf,
    State.pushed_read_sp_of_eq hwf, rfl, State.pushed_keepsMemoryBut, State.decSp_reg_of_ne s,
    State.pushed_pc_toNat hpc, rfl, rfl, rfl, rfl⟩

/-! ### The state POP retires in -/

/-- POP into register `d`, past its check (43_stack.md R172). -/
def State.popped (s : State) (d : Fin 8) : State := (s.setReg d (s.mem.read s.sp.toNat)).incSp.advance 1

section Popped

variable {a : Byte} {d : Fin 8} {s : State}

theorem exec_pop_eq (h : a.toNat = d.val) (s : State) : exec (.pop a) s = .next (s.popped d) :=
  execPop_next_iff.2 ⟨d, h, rfl⟩

theorem State.popped_pc_toNat (hpc : s.pc.toNat ≤ 253) : (s.popped d).pc.toNat = s.pc.toNat + 2 :=
  State.advance_pc_toNat (s := (s.setReg d _).incSp) hpc (by decide)

/-- The increment leaves every register but 7 as the load left it. -/
theorem State.popped_reg_of_ne {q : Fin 8} (hq : q ≠ 7) :
    (s.popped d).reg q = (s.setReg d (s.mem.read s.sp.toNat)).reg q := State.incSp_reg_of_ne _ q hq

theorem State.popped_sp_toNat :
    (s.popped d).sp.toNat = ((s.setReg d (s.mem.read s.sp.toNat)).sp.toNat + 1) % 256 := State.incSp_sp _

theorem State.popped_sp_toNat_of_ne (hd : d ≠ 7) : (s.popped d).sp.toNat = (s.sp.toNat + 1) % 256 := by
  have hload : (s.setReg d (s.mem.read s.sp.toNat)).sp = s.sp := State.reg_setReg_of_ne s d 7 _ hd.symm
  rw [State.popped_sp_toNat, hload]

/-- For the stack pointer itself the increment acts on the byte loaded. -/
theorem State.popped_sp_toNat_of_eq (hd : d = 7) :
    (s.popped d).sp.toNat = ((s.mem.read s.sp.toNat).toNat + 1) % 256 := by
  subst hd
  have hload : (s.setReg 7 (s.mem.read s.sp.toNat)).sp = s.mem.read s.sp.toNat := State.reg_setReg_self s 7 _
  rw [State.popped_sp_toNat, hload]

/-- Where the byte at the stack pointer is already in the register, POP only increments the stack pointer and
advances. -/
theorem State.popped_of_read_eq (h : s.mem.read s.sp.toNat = s.reg d) : s.popped d = s.incSp.advance 1 := by
  rw [State.popped, h, State.setReg_reg_self]

end Popped

/-- Settles O25: the load writes register `d` and the increment after it register 7, which for `d = 7` is the byte just
loaded. -/
theorem popLoadsThenIncrements : Obligations.PopLoadsThenIncrements := by
  refine ⟨selects_withOperands .pop, fun a s ha => settle_regIndex_of_large ha s _, fun a d s ha hpc => ?_⟩
  have hloaded (hd : d ≠ 7) : (s.popped d).reg d = s.mem.read s.sp.toNat := by
    rw [State.popped_reg_of_ne hd, State.reg_setReg_self]
  have hothers (q : Fin 8) (hqd : q ≠ d) (hq : q ≠ 7) : (s.popped d).reg q = s.reg q := by
    rw [State.popped_reg_of_ne hq, State.reg_setReg_of_ne s d q _ hqd]
  exact ⟨s.popped d, exec_pop_eq ha s, fun hd => ⟨hloaded hd, State.popped_sp_toNat_of_ne hd⟩,
    State.popped_sp_toNat_of_eq, hothers, fun _ => rfl, State.popped_pc_toNat hpc, rfl, rfl, rfl, rfl⟩

/-! ### PUSH, then POP -/

/-- A RUNNING state with the opcode of `m` at `pc` runs `m` with the two bytes after it (40_sequencer.md R116). -/
theorem stepWith_of_opcode {map : OpcodeMap} (hmap : map.Admissible) {s t : State} {m : Mnemonic} {a : Byte}
    (hrun : s.run = .running) (hpc : s.pc.toNat ≤ 253) (hopcode : s.mem.read s.pc.toNat = map m)
    (hoperand : s.mem.read (s.pc.toNat + 1) = a)
    (hexec : exec (m.withOperands a (s.mem.read (s.pc.toNat + 2))) s = .next t) : stepWith map s = .next t := by
  subst hoperand
  have hdecode := selects_withOperands m map hmap (s.mem.read (s.pc.toNat + 1)) (s.mem.read (s.pc.toNat + 2))
  rw [← hopcode] at hdecode
  exact stepWith_next_iff.2 ⟨hrun, _, fetchInstr_ok_iff.2 ⟨hpc, hdecode⟩, hexec⟩

/-- PUSH leaves the byte that POP loads in the register POP writes, so POP into it has only the decrement to undo
(43_stack.md R173). -/
theorem State.popped_pushed_reg {s : State} (hwf : s.mem.wf = true) (r q : Fin 8) :
    ((s.pushed r).popped r).reg q = s.reg q := by
  have hread : (s.pushed r).mem.read (s.pushed r).sp.toNat = (s.pushed r).reg r := by
    rw [State.pushed_sp, State.pushed_reg, State.pushed_read_sp hwf]
  calc ((s.pushed r).popped r).reg q = (s.pushed r).incSp.reg q := by
        rw [State.popped_of_read_eq hread, State.advance_reg]
    _ = s.decSp.incSp.reg q := rfl
    _ = s.reg q := by rw [State.incSp_decSp]

/-- Settles O42: the store misses the bytes of POP, so the second step runs it, and together the two instructions leave
every register, and what PUSH stored, in place. -/
theorem pushThenPopRestores : Obligations.PushThenPopRestores := by
  intro map hmap s a r ha hwf hrun hpc hpush hpushOperand hpop hpopOperand hmissOpcode hmissOperand
  have hpc1 : (s.pushed r).pc.toNat = s.pc.toNat + 2 := State.pushed_pc_toNat (by omega)
  have hpop1 : (s.pushed r).mem.read (s.pushed r).pc.toNat = map .pop := by
    rw [hpc1, State.pushed_keepsMemoryBut _ hmissOpcode.symm, hpop]
  have hpopOperand1 : (s.pushed r).mem.read ((s.pushed r).pc.toNat + 1) = a := by
    rw [hpc1, State.pushed_keepsMemoryBut _ hmissOperand.symm, hpopOperand]
  exact ⟨s.pushed r, (s.pushed r).popped r,
    stepWith_of_opcode hmap hrun (by omega) hpush hpushOperand (exec_push_eq ha s),
    stepWith_of_opcode hmap hrun (by omega) hpop1 hpopOperand1 (exec_pop_eq ha _),
    State.popped_pushed_reg hwf r r, State.popped_pushed_reg hwf r 7,
    State.pushed_read_sp_of_ne hwf, State.pushed_read_sp_of_eq hwf⟩

end Sys2Proof.Machine
end

section
/-!
PROOFS. The jump form, the states that CALL and RET retire in, and the obligations of 44_control_transfer.md:
JmpGoesToTheRegister, RetTransfersToTheTopOfStack, CallStoresTheReturnAddress and CallThenRetReturns.
-/

namespace Sys2Proof.Machine

open Sys2Proof.Claims

/-! ### The jump form -/

/-- An instruction whose handler is the jump form follows the rule of the jumps, with the condition that its test of the
flags decides: the register is checked taken or not, and the jump and the advance write `pc` alone. -/
theorem jumpRule_of_jumpIf {m : Mnemonic} {mk : Byte → Instr} {test : Byte → Bool} {taken : Byte → Prop}
    (hselects : Selects m (fun a _ => mk a))
    (hexec : ∀ a s, exec (mk a) s = settle s (jumpIf (test s.fl) a s)) (htest : ∀ fl, test fl = true ↔ taken fl) :
    JumpRule m mk taken := by
  refine ⟨hselects, fun a s ha => (hexec a s).trans (settle_regIndex_of_large ha s _), fun a r s ha hpc => ?_⟩
  have hnext : exec (mk a) s = .next (if test s.fl then s.jumpTo (s.reg r) else s.advance 1) :=
    (hexec a s).trans (settle_next_iff.2 (jumpIf_ok_iff.2 ⟨r, ha, rfl⟩))
  cases hfl : test s.fl with
  | true =>
    have htaken : taken s.fl := (htest s.fl).1 hfl
    rw [hfl, if_pos rfl] at hnext
    exact ⟨_, hnext, fun _ => zext9_toNat (s.reg r), fun hnot => absurd htaken hnot, fun _ => rfl, rfl, fun _ => rfl,
      rfl, rfl, rfl⟩
  | false =>
    have hnot : ¬ taken s.fl := fun htaken => by simp [(htest s.fl).2 htaken] at hfl
    rw [hfl, if_neg Bool.false_ne_true] at hnext
    exact ⟨_, hnext, fun htaken => absurd htaken hnot, fun _ => State.advance_pc_toNat hpc (by decide), fun _ => rfl,
      rfl, fun _ => rfl, rfl, rfl, rfl⟩

/-- Settles O28: JMP is the jump form whose test every flags byte passes. -/
theorem jmpGoesToTheRegister : Obligations.JmpGoesToTheRegister :=
  jumpRule_of_jumpIf (test := fun _ => true) (selects_withOperands .jmp) (fun _ _ => rfl)
    (fun _ => iff_of_true rfl trivial)

/-! ### The state RET retires in -/

/-- RET (44_control_transfer.md R182). -/
def State.returned (s : State) : State := (s.jumpTo (s.mem.read s.sp.toNat)).incSp

section Returned

variable {s : State}

theorem exec_ret_eq (s : State) : exec .ret s = .next s.returned := execRet_eq s

theorem State.returned_pc_toNat : s.returned.pc.toNat = (s.mem.read s.sp.toNat).toNat := zext9_toNat _

theorem State.returned_sp : s.returned.sp = s.incSp.sp := rfl

theorem State.returned_keepsRegistersBut : KeepsRegistersBut 7 s s.returned :=
  fun q hq => State.incSp_reg_of_ne (s.jumpTo _) q hq

end Returned

/-- Settles O27: the load from the stack cannot fault, and past it the jump writes `pc` alone and the increment register
7 alone. -/
theorem retTransfersToTheTopOfStack : Obligations.RetTransfersToTheTopOfStack :=
  ⟨selects_withOperands .ret, fun s => ⟨s.returned, exec_ret_eq s, State.returned_pc_toNat, State.incSp_sp s,
    State.returned_keepsRegistersBut, fun _ => rfl, rfl, rfl, rfl, rfl⟩⟩

/-! ### The state CALL retires in -/

/-- CALL to the address in register `r`, past its check (44_control_transfer.md R181). -/
def State.called (s : State) (r : Fin 8) : State :=
  { s.decSp with mem := s.mem.write s.decSp.sp.toNat s.returnAddress }.jumpTo (s.decSp.reg r)

section Called

variable {a : Byte} {r : Fin 8} {s : State}

theorem exec_call_next_iff {t : State} : exec (.call a) s = .next t ↔ ∃ r : Fin 8, a.toNat = r.val ∧ t = s.called r :=
  execCall_next_iff

/-- Where a fetch succeeded the return address does not wrap (44_control_transfer.md R181). -/
theorem State.returnAddress_toNat (hpc : s.pc.toNat ≤ 253) : s.returnAddress.toNat = s.pc.toNat + 2 := by
  have hwrap : s.returnAddress.toNat = (s.pc.toNat + 2) % 256 := wrap8_natCast_toNat (s.pc.toNat + 2)
  omega

/-- The byte at the new stack pointer is the return address. -/
theorem State.called_read_sp_toNat (hwf : s.mem.wf = true) (hpc : s.pc.toNat ≤ 253) :
    ((s.called r).mem.read s.decSp.sp.toNat).toNat = s.pc.toNat + 2 :=
  (congrArg BitVec.toNat (Memory.read_write_self hwf _ _)).trans (State.returnAddress_toNat hpc)

theorem State.called_keepsMemoryBut : KeepsMemoryBut s.decSp.sp.toNat s (s.called r) :=
  fun _ hx => Memory.read_write_other s.mem hx _

/-- The target is the register as read after the decrement. -/
theorem State.called_pc_toNat : (s.called r).pc.toNat = (s.decSp.reg r).toNat := zext9_toNat _

/-- For every register but the stack pointer the decrement does not show in the target. -/
theorem State.called_pc_toNat_of_ne (hr : r ≠ 7) : (s.called r).pc.toNat = (s.reg r).toNat := by
  rw [State.called_pc_toNat, State.decSp_reg_of_ne s r hr]

/-- For the stack pointer the target is the decremented value. -/
theorem State.called_pc_toNat_of_eq (hr : r = 7) : (s.called r).pc.toNat = s.decSp.sp.toNat := by
  rw [State.called_pc_toNat, hr, State.reg_spIndex]

end Called

/-- Settles O26: the decrement writes register 7 alone, the store after it the one cell at the new stack pointer, where
a canonical memory reads the return address back, and the jump `pc` alone. -/
theorem callStoresTheReturnAddress : Obligations.CallStoresTheReturnAddress := by
  refine ⟨selects_withOperands .call, fun a s ha => settle_regIndex_of_large ha s _, fun a r s ha hpc hwf => ?_⟩
  exact ⟨s.called r, exec_call_next_iff.2 ⟨r, ha, rfl⟩, State.decSp_sp s, rfl, State.called_read_sp_toNat hwf hpc,
    State.called_keepsMemoryBut, State.called_pc_toNat_of_ne, State.called_pc_toNat_of_eq, State.decSp_reg_of_ne s,
    rfl, rfl, rfl, rfl⟩

/-! ### CALL, then RET -/

/-- A step that answers a next state from the opcode of `m` at `pc` fetched at 253 or below and ran `m` with the two
bytes after it (40_sequencer.md R116). -/
theorem exec_of_stepWith_opcode {map : OpcodeMap} (hmap : map.Admissible) {s t : State} {m : Mnemonic}
    (hopcode : s.mem.read s.pc.toNat = map m) (hstep : stepWith map s = .next t) :
    s.pc.toNat ≤ 253 ∧
      exec (m.withOperands (s.mem.read (s.pc.toNat + 1)) (s.mem.read (s.pc.toNat + 2))) s = .next t := by
  obtain ⟨-, i, hfetch, hexec⟩ := stepWith_next_iff.1 hstep
  obtain ⟨hpc, hdecode⟩ := fetchInstr_ok_iff.1 hfetch
  rw [hopcode] at hdecode
  obtain rfl := Except.ok.inj ((selects_withOperands m map hmap _ _).symm.trans hdecode)
  exact ⟨hpc, hexec⟩

/-- The increment reads the stack pointer alone, so it undoes the decrement of another state too (10_state.md R25). -/
theorem State.incSp_sp_of_sp_eq_decSp {s u : State} (h : u.sp = s.decSp.sp) : u.incSp.sp = s.sp := by
  apply BitVec.eq_of_toNat_eq
  calc u.incSp.sp.toNat = (s.decSp.sp.toNat + 1) % 256 := by rw [State.incSp_sp, h]
    _ = s.decSp.incSp.sp.toNat := (State.incSp_sp s.decSp).symm
    _ = s.sp.toNat := by rw [State.incSp_decSp]

/-- Settles O43: RET loads the byte that CALL stored, the address after the CALL's operand, and its increment undoes
CALL's decrement. -/
theorem callThenRetReturns : Obligations.CallThenRetReturns := by
  intro map hmap s s1 s2 t hwf hcall hstepCall hret hstepRet hsp hstored
  obtain ⟨hpc, hexecCall⟩ := exec_of_stepWith_opcode hmap hcall hstepCall
  obtain ⟨r, -, rfl⟩ := exec_call_next_iff.1 hexecCall
  obtain ⟨-, hexecRet⟩ := exec_of_stepWith_opcode hmap hret hstepRet
  cases (exec_ret_eq s2).symm.trans hexecRet
  constructor
  · rw [State.returned_pc_toNat, hsp, hstored, State.called_read_sp_toNat hwf hpc]
  · rw [State.returned_sp, State.incSp_sp_of_sp_eq_decSp hsp]

end Sys2Proof.Machine
end

section
/-!
PROOFS. The operand bytes of an instruction and its mnemonic, and the obligations about decoder and encoder of
30_encoding.md: DecodeOfEncodeIsTheInstruction, EncodeOfDecodeIsTheFetchedBytes, DefaultMapIsAdmissible and
OpcodeTableRowsDecode.
-/

namespace Sys2Proof

open Sys2Proof.Machine Sys2Proof.Claims

/-! ### Operand bytes and the mnemonic -/

/-- With two lookahead bytes after them the operands fill both operand places, and a place that the format does not have
is dropped (30_encoding.md R82, R90). -/
theorem Instr.exists_operands_append (i : Instr) (x y : Byte) :
    ∃ a b rest, i.operands ++ [x, y] = a :: b :: rest ∧ i.mnemonic.withOperands a b = i := by
  cases i <;> exact ⟨_, _, _, rfl, rfl⟩

theorem Instr.operands_length (i : Instr) : i.operands.length = i.mnemonic.operandCount := by
  cases i <;> rfl

/-- The operands kept are as many as the format has. -/
theorem Mnemonic.operands_withOperands (m : Mnemonic) (a b : Byte) :
    (m.withOperands a b).operands = [a, b].take m.operandCount := by
  cases m <;> rfl

theorem Mnemonic.operandCount_le_two (m : Mnemonic) : m.operandCount ≤ 2 := by
  cases m <;> decide

/-- The opcode byte tells the format's length under every admissible map (30_encoding.md R89, R94). -/
theorem opcodeLength_of_admissible {map : OpcodeMap} (hmap : map.Admissible) (m : Mnemonic) :
    opcodeLength (map m) = m.operandCount + 1 := by
  rw [opcodeLength, hmap.count]

theorem encodeWith_length (map : OpcodeMap) (i : Instr) :
    (encodeWith map i).length = i.mnemonic.operandCount + 1 := by
  rw [encodeWith, List.length_cons, Instr.operands_length]

/-! ### The obligations -/

/-- Settles O4: the opcode selects the mnemonic, and the two places after it hold the operands. -/
theorem decodeOfEncodeIsTheInstruction : Obligations.DecodeOfEncodeIsTheInstruction := by
  intro map hmap i x y
  refine ⟨?_, ?_, ?_⟩
  · obtain ⟨a, b, rest, hbytes, hi⟩ := Instr.exists_operands_append i x y
    rw [encodeWith, List.cons_append, hbytes, decodeWith_ok_iff]
    exact ⟨i.mnemonic, (OpcodeMap.lookup_some_iff hmap.injective).2 rfl, hi⟩
  · rw [encodeWith_length, opcodeLength_of_admissible hmap]
  · have hcount := i.mnemonic.operandCount_le_two
    rw [encodeWith_length]
    omega

/-- Settles O5: what was decoded is a mnemonic whose value the opcode byte is, with the operands that its format
keeps. -/
theorem encodeOfDecodeIsTheFetchedBytes : Obligations.EncodeOfDecodeIsTheFetchedBytes := by
  intro map hmap ir a b i hdecode
  obtain ⟨m, hlookup, rfl⟩ := decodeWith_ok_iff.1 hdecode
  obtain rfl := (OpcodeMap.lookup_some_iff hmap.injective).1 hlookup
  rw [encodeWith, Mnemonic.withOperands_mnemonic, Mnemonic.operands_withOperands, opcodeLength_of_admissible hmap,
    List.take_succ_cons]

/-- Settles O2: the 24 values of the table are pairwise different, and their bits are read row by row. -/
theorem defaultMapIsAdmissible : Obligations.DefaultMapIsAdmissible where
  injective m n h :=
    have hnodup : (Mnemonic.all.map Config.opcodeMap).Nodup := by decide
    List.inj_on_of_nodup_map hnodup m.mem_all n.mem_all h
  hlt := rfl
  ldi := rfl
  prn := rfl
  count m := by cases m <;> rfl
  alu m := by cases m <;> rfl
  setsPc m := by cases m <;> rfl

/-- Settles O1: each row's byte is the value of its mnemonic under the default map, which is admissible, so it selects
that mnemonic's instruction. -/
theorem opcodeTableRowsDecode : Obligations.OpcodeTableRowsDecode := by
  intro a b
  have hrow (m : Mnemonic) : decode [Config.opcodeMap m, a, b] = .ok (m.withOperands a b) :=
    selects_withOperands m Config.opcodeMap defaultMapIsAdmissible a b
  exact ⟨hrow .hlt, hrow .ldi, hrow .prn, hrow .pra, hrow .add, hrow .sub, hrow .mul, hrow .mod, hrow .inc, hrow .dec,
    hrow .cmp, hrow .and, hrow .or, hrow .xor, hrow .not, hrow .shl, hrow .shr, hrow .push, hrow .pop, hrow .call,
    hrow .ret, hrow .jmp, hrow .jeq, hrow .jne⟩

end Sys2Proof
end

section
/-!
PROOFS. What an instruction leaves of memory and the registers (20_memory.md, 10_state.md section 2), the invariant, and
the obligations OnlyPushAndCallWriteMemory, RegistersWrittenAreThoseOfTheTable, UnnamedRegistersHaveNoEffect and
StepKeepsTheInvariant.
-/

namespace Sys2Proof.Machine

open Sys2Proof.Claims

/-! ### The memory and the registers of the state that an instruction retires in -/

/-- What retiring `i` from `s` in `t` says of memory and the registers: at most the one cell at the decremented stack
pointer is stored to, and a register that the tables do not let `i` write is as before. -/
structure Writes (i : Instr) (s t : State) : Prop where
  mem : t.mem = s.mem ∨
    storedAddresses i s = [s.decSp.sp.toNat] ∧ ∃ v, t.mem = s.mem.write s.decSp.sp.toNat v
  reg : ∀ q : Fin 8, (∀ a ∈ writtenOperand i, a.toNat ≠ q.val) → (usesStack i = true → q ≠ 7) → t.reg q = s.reg q

section Forms

variable {i : Instr} {s t : State} {a b : Byte} {d : Fin 8}

/-- An instruction that writes neither memory nor a register. -/
theorem writes_nothing (hmem : t.mem = s.mem) (hreg : ∀ q, t.reg q = s.reg q) : Writes i s t :=
  ⟨.inl hmem, fun q _ _ => hreg q⟩

/-- A written operand names no register that the table leaves out. -/
theorem ne_of_writtenOperand {q : Fin 8} (ha : a.toNat = d.val) (hi : writtenOperand i = [a])
    (hq : ∀ a ∈ writtenOperand i, a.toNat ≠ q.val) : q ≠ d := by
  rintro rfl
  exact hq a (by simp [hi]) ha

/-- The register write of the operand forms. -/
theorem writes_setReg_advance (v : Byte) (n : Nat) (ha : a.toNat = d.val) (hi : writtenOperand i = [a]) :
    Writes i s ((s.setReg d v).advance n) :=
  ⟨.inl rfl, fun q hq _ => State.reg_setReg_of_ne s d q v (ne_of_writtenOperand ha hi hq)⟩

theorem writes_writeBinary {f : Byte → Byte → Byte} (hi : writtenOperand i = [a])
    (h : settle s (writeBinary f a b s) = .next t) : Writes i s t := by
  obtain ⟨d, r, ha, -, rfl⟩ := writeBinary_ok_iff.1 (settle_next_iff.1 h)
  exact writes_setReg_advance _ 2 ha hi

theorem writes_writeUnary {f : Byte → Byte} (hi : writtenOperand i = [a])
    (h : settle s (writeUnary f a s) = .next t) : Writes i s t := by
  obtain ⟨d, ha, rfl⟩ := writeUnary_ok_iff.1 (settle_next_iff.1 h)
  exact writes_setReg_advance _ 1 ha hi

theorem writes_emitRegister {event : Byte → OutEvent} (h : settle s (emitRegister event a s) = .next t) :
    Writes i s t := by
  obtain ⟨r, -, rfl⟩ := emitRegister_ok_iff.1 (settle_next_iff.1 h)
  exact writes_nothing rfl fun _ => rfl

theorem writes_jumpIf {taken : Bool} (h : settle s (jumpIf taken a s) = .next t) : Writes i s t := by
  obtain ⟨r, -, rfl⟩ := jumpIf_ok_iff.1 (settle_next_iff.1 h)
  cases taken with
  | false => exact writes_nothing rfl fun _ => rfl
  | true => exact writes_nothing rfl fun _ => rfl

end Forms

/-- Every instruction that answers a next state writes memory and the registers as the tables say. -/
theorem writes_of_exec_next {i : Instr} {s t : State} (h : exec i s = .next t) : Writes i s t := by
  cases i with
  | hlt =>
    cases h
    exact writes_nothing rfl fun _ => rfl
  | ldi a imm =>
    obtain ⟨d, ha, rfl⟩ := execLdi_next_iff.1 h
    exact writes_setReg_advance imm 2 ha rfl
  | prn a => exact writes_emitRegister h
  | pra a => exact writes_emitRegister h
  | add a b => exact writes_writeBinary rfl h
  | sub a b => exact writes_writeBinary rfl h
  | mul a b => exact writes_writeBinary rfl h
  | mod a b =>
    obtain ⟨d, r, ha, -, -, rfl⟩ := execMod_next_iff.1 h
    exact writes_setReg_advance _ 2 ha rfl
  | inc a => exact writes_writeUnary rfl h
  | dec a => exact writes_writeUnary rfl h
  | cmp a b =>
    obtain ⟨p, q, -, -, rfl⟩ := execCmp_next_iff.1 h
    exact writes_nothing rfl fun _ => rfl
  | and a b => exact writes_writeBinary rfl h
  | or a b => exact writes_writeBinary rfl h
  | xor a b => exact writes_writeBinary rfl h
  | not a => exact writes_writeUnary rfl h
  | shl a b => exact writes_writeBinary rfl h
  | shr a b => exact writes_writeBinary rfl h
  | push a =>
    obtain ⟨r, -, rfl⟩ := execPush_next_iff.1 h
    exact ⟨.inr ⟨rfl, _, rfl⟩, fun q _ hq => State.decSp_reg_of_ne s q (hq rfl)⟩
  | pop a =>
    obtain ⟨d, ha, rfl⟩ := execPop_next_iff.1 h
    refine ⟨.inl rfl, fun q hqd hq => ?_⟩
    exact (State.incSp_reg_of_ne _ q (hq rfl)).trans
      (State.reg_setReg_of_ne s d q _ (ne_of_writtenOperand ha rfl hqd))
  | call a =>
    obtain ⟨r, -, rfl⟩ := execCall_next_iff.1 h
    exact ⟨.inr ⟨rfl, _, rfl⟩, fun q _ hq => State.decSp_reg_of_ne s q (hq rfl)⟩
  | ret =>
    cases (execRet_eq s).symm.trans h
    exact ⟨.inl rfl, fun q _ hq => State.incSp_reg_of_ne _ q (hq rfl)⟩
  | jmp a => exact writes_jumpIf h
  | jeq a => exact writes_jumpIf h
  | jne a => exact writes_jumpIf h

/-- Settles O32: a retiring instruction stores to the one cell at the decremented stack pointer, or to none. -/
theorem onlyPushAndCallWriteMemory : Obligations.OnlyPushAndCallWriteMemory := by
  intro i s t h x hx
  obtain hsame | ⟨hstored, v, hwrite⟩ := (writes_of_exec_next h).mem
  · rw [hsame]
  · have hne : x ≠ s.decSp.sp.toNat := by simpa [hstored] using hx
    rw [hwrite, Memory.read_write_other s.mem hne]

/-- Settles O34: the registers of a retiring instruction. -/
theorem registersWrittenAreThoseOfTheTable : Obligations.RegistersWrittenAreThoseOfTheTable :=
  fun _ _ _ h => (writes_of_exec_next h).reg

/-! ### A register that an instruction does not use -/

/-- Another value in a register is unseen by an instruction that does not use it. -/
theorem unseen_setReg {i : Instr} {d : Fin 8} (hi : ¬ UsesRegister i d) (v : Byte) :
    Unseen i (fun t => t.setReg d v) where
  mem _ := rfl
  pc _ := rfl
  reg s q hq := State.reg_setReg_of_ne s d q v fun h => hi (h ▸ hq)
  fl _ _ := rfl
  setMem _ _ := rfl
  setPc _ _ := rfl
  setReg s q w hq := State.setReg_comm s d q v w fun h => hi (h ▸ hq)
  setFl _ _ _ := rfl
  emit _ _ := rfl
  halt _ := rfl
  faultedWith _ _ := rfl

/-- Settles O35: fetch reads memory and `pc` alone, and a register that an instruction does not use is unseen by it. -/
theorem unnamedRegistersHaveNoEffect : Obligations.UnnamedRegistersHaveNoEffect := by
  refine ⟨rfl, rfl, fun d v s => ⟨rfl, fun i hnamed hstack => ?_⟩⟩
  have hi : ¬ UsesRegister i d := by
    rintro (⟨a, ha, had⟩ | ⟨hs, hd⟩)
    · exact hnamed a ha had
    · simp [hstack hd] at hs
  exact (unseen_setReg hi v).exec_eq_mapState s

/-! ### The invariant -/

/-- The only store is inside memory, so the canonical form is kept. -/
theorem Writes.mem_wf {i : Instr} {s t : State} (h : Writes i s t) (hwf : s.mem.wf = true) : t.mem.wf = true := by
  obtain hsame | ⟨-, v, hwrite⟩ := h.mem
  · rwa [hsame]
  · rw [hwrite]
    exact Memory.wf_write hwf s.decSp.sp.isLt v

/-- From where a fetch succeeds every row of the table stays at 256 or below (10_state.md R29). -/
theorem nextPc_le (i : Instr) {s : State} (hpc : s.pc.toNat ≤ 253) : nextPc i s ≤ 256 := by
  have hbyte (v : Byte) : v.toNat ≤ 256 := by have := v.isLt; omega
  cases i with
  | hlt | ldi | prn | pra | add | sub | mul | mod | inc | dec | cmp | and | or | xor | not | shl | shr | push | pop =>
    simp only [nextPc]; omega
  | call a =>
    have := hbyte (namedRegister s a)
    simp only [nextPc]
    split <;> omega
  | ret => exact hbyte _
  | jmp a => exact hbyte _
  | jeq a | jne a =>
    have := hbyte (namedRegister s a)
    simp only [nextPc]
    split <;> omega

/-- CMP writes one of the three flag values (42_alu.md R148). -/
theorem legalFlags_compareFlags (x y : Byte) : legalFlags (compareFlags x y) = true := by
  unfold compareFlags
  split
  · rfl
  · split <;> rfl

theorem legalFlags_of_exec_next {i : Instr} {s t : State} (h : exec i s = .next t)
    (hfl : legalFlags s.fl = true) : legalFlags t.fl = true := by
  by_cases hcmp : ∃ a b, i = .cmp a b
  · obtain ⟨a, b, rfl⟩ := hcmp
    obtain ⟨p, q, -, -, rfl⟩ := execCmp_next_iff.1 h
    exact legalFlags_compareFlags _ _
  · rwa [(retires_of_exec_next h).fl fun a b hi => hcmp ⟨a, b, hi⟩]

/-- A retiring instruction leaves the run-state RUNNING or HALTED. -/
theorem Retires.run_ne_faulted {i : Instr} {s t : State} (h : Retires i s t) (hrun : s.run = .running) :
    t.run ≠ .faulted := by
  rw [h.run, hrun]
  split <;> decide

/-- An instruction run where a fetch succeeded keeps the invariant. -/
theorem State.Inv.exec_next {i : Instr} {s t : State} (hs : s.Inv) (hrun : s.run = .running)
    (hpc : s.pc.toNat ≤ 253) (h : exec i s = .next t) : t.Inv := by
  have hret := retires_of_exec_next h
  have hnofault : s.fault = none := hs.record.2 (by simp [hrun])
  exact {
    memory := (writes_of_exec_next h).mem_wf hs.memory
    pcRange := (hret.pc hpc).trans_le (nextPc_le i hpc)
    flags := legalFlags_of_exec_next h hs.flags
    record := iff_of_true (hret.fault.trans hnofault) (hret.run_ne_faulted hrun) }

/-- Settles O40: a step that answers a next state fetched at 253 or below in RUNNING and ran an instruction. -/
theorem stepKeepsTheInvariant : Obligations.StepKeepsTheInvariant := by
  intro s t hs hstep
  obtain ⟨hrun, i, hfetch, hexec⟩ := stepWith_next_iff.1 hstep
  exact hs.exec_next hrun (fetchInstr_ok_iff.1 hfetch).1 hexec

end Sys2Proof.Machine
end

section
/-!
PROOFS. What fetch, decode and a step answer, and the obligations about them: FetchReadsThreeBytesOrFaults,
StepRunsTheDecodedInstruction, IllegalOpcodeFaults, IllegalOpcodesAreTheOther232, NoStepOutsideRunning,
FaultEntryIsPrecise, FaultKeepsTheInvariant and RunStateTransitions.
-/

namespace Sys2Proof.Machine

open Sys2Proof.Claims

/-! ### Fetch: 40_sequencer.md R111 -/

section Fetch

variable {s : State}

theorem fetch_of_le (hpc : s.pc.toNat ≤ 253) : fetch s = .ok (bytesAtPc s) := fetch_ok_iff.2 ⟨hpc, rfl⟩

theorem fetch_of_255_lt (hpc : 255 < s.pc.toNat) : fetch s = .error ⟨.outOfRangeAddress, s.pc.toNat⟩ := by
  rw [fetch, memRead_of_gt hpc, attempt_error_bind]

/-- At 255 the first lookahead byte is outside memory. -/
theorem fetch_of_eq_255 (hpc : s.pc.toNat = 255) : fetch s = .error ⟨.outOfRangeAddress, 256⟩ := by
  rw [fetch, hpc, memRead_of_le le_rfl, attempt_ok_bind, memRead_of_gt (by decide), attempt_error_bind]

/-- At 254 the second lookahead byte is outside memory. -/
theorem fetch_of_eq_254 (hpc : s.pc.toNat = 254) : fetch s = .error ⟨.outOfRangeAddress, 256⟩ := by
  rw [fetch, hpc, memRead_of_le (by decide), attempt_ok_bind, memRead_of_le le_rfl, attempt_ok_bind,
    memRead_of_gt (by decide), attempt_error_bind]

/-- The lookahead faults at 254 and 255, whatever byte is at `pc` (40_sequencer.md R111, decision D20). -/
theorem fetch_of_lookahead (hpc : s.pc.toNat = 254 ∨ s.pc.toNat = 255) :
    fetch s = .error ⟨.outOfRangeAddress, 256⟩ :=
  hpc.elim fetch_of_eq_254 fetch_of_eq_255

end Fetch

/-! ### Decode and step: 40_sequencer.md R112, R116 -/

section Step

variable {map : OpcodeMap} {s : State} {i : Instr} {r : FaultRecord}

theorem fetchInstr_of_le (hpc : s.pc.toNat ≤ 253) : fetchInstr map s = decodeFetched map (bytesAtPc s) := by
  rw [fetchInstr, fetch_of_le hpc, attempt_ok_bind]

theorem decodeFetched_of_illegal {ir a b : Byte} (h : ∀ m, map m ≠ ir) :
    decodeFetched map [ir, a, b] = .error ⟨.illegalInstruction, ir.toNat⟩ := by
  rw [decodeFetched, decodeWith_error_iff.2 ⟨OpcodeMap.lookup_none_iff.2 h, rfl⟩]

/-- Raising leaves the fields that 60_exceptions.md R209 lists. -/
theorem raise_eq_faultOf (s : State) (r : FaultRecord) : raise s r = faultOf s r.cause r.info := rfl

theorem stepWith_of_halted (hrun : s.run = .halted) : stepWith map s = .fault .noStepHalted := by
  rw [stepWith, hrun]

theorem stepWith_of_faulted (hrun : s.run = .faulted) : stepWith map s = .fault .noStepFaulted := by
  rw [stepWith, hrun]

theorem stepWith_of_fetchInstr_ok (hrun : s.run = .running) (h : fetchInstr map s = .ok i) :
    stepWith map s = exec i s := by
  simp only [stepWith, hrun, h]

theorem stepWith_of_fetchInstr_error (hrun : s.run = .running) (h : fetchInstr map s = .error r) :
    stepWith map s = faultOf s r.cause r.info := by
  simp only [stepWith, hrun, h, raise_eq_faultOf]

theorem stepWith_of_fetch_error (hrun : s.run = .running) (h : fetch s = .error r) :
    stepWith map s = faultOf s r.cause r.info :=
  stepWith_of_fetchInstr_error hrun (by rw [fetchInstr, h, attempt_error_bind])

theorem stepWith_of_decode (hrun : s.run = .running) (hpc : s.pc.toNat ≤ 253)
    (h : decodeWith map (bytesAtPc s) = .ok i) : stepWith map s = exec i s :=
  stepWith_of_fetchInstr_ok hrun (fetchInstr_ok_iff.2 ⟨hpc, h⟩)

/-- 40_sequencer.md R118. -/
theorem stepWith_of_illegal (hrun : s.run = .running) (hpc : s.pc.toNat ≤ 253)
    (h : ∀ m, map m ≠ s.mem.read s.pc.toNat) :
    stepWith map s = faultOf s .illegalInstruction (s.mem.read s.pc.toNat).toNat :=
  stepWith_of_fetchInstr_error hrun ((fetchInstr_of_le hpc).trans (decodeFetched_of_illegal h))

/-- With the opcode of `m` at `pc` the step executes `m` with the two bytes after it, whatever that answers. -/
theorem stepWith_eq_exec_of_opcode (hmap : map.Admissible) (hrun : s.run = .running) (hpc : s.pc.toNat ≤ 253)
    {m : Mnemonic} (hopcode : s.mem.read s.pc.toNat = map m) :
    stepWith map s =
      exec (m.withOperands (s.mem.read (s.pc.toNat + 1)) (s.mem.read (s.pc.toNat + 2))) s := by
  refine stepWith_of_decode hrun hpc ?_
  rw [bytesAtPc, hopcode]
  exact selects_withOperands m map hmap _ _

/-- A RUNNING state's step settles one attempt (40_sequencer.md R120). -/
theorem stepWith_settles (map : OpcodeMap) (hrun : s.run = .running) :
    ∃ x : Attempt State, stepWith map s = settle s x := by
  cases hfetch : fetchInstr map s with
  | ok i =>
    rw [stepWith_of_fetchInstr_ok hrun hfetch]
    exact exec_settles i s
  | error r => exact ⟨.error r, stepWith_of_fetchInstr_error hrun hfetch⟩

/-- Fault entry (60_exceptions.md R209): a fault is raised from RUNNING alone, and writes the run-state and the
record. -/
theorem stepWith_raised {t : State} {c : FaultCause} {n : Nat} (h : stepWith map s = .fault (.raised c n t)) :
    s.run = .running ∧ t = s.faultedWith ⟨c, n⟩ := by
  cases hrun : s.run with
  | running =>
    obtain ⟨x, hx⟩ := stepWith_settles map hrun
    obtain ⟨r, -, hfault⟩ := settle_fault_iff.1 (hx.symm.trans h)
    cases hfault
    exact ⟨rfl, rfl⟩
  | halted => simp [stepWith_of_halted hrun] at h
  | faulted => simp [stepWith_of_faulted hrun] at h

end Step

/-! ### The obligations about fetch and the step -/

/-- Settles O7: the three reads of a fetch, and the step that raises what they raise. -/
theorem fetchReadsThreeBytesOrFaults : Obligations.FetchReadsThreeBytesOrFaults :=
  fun _ => ⟨fetch_of_le, fetch_of_lookahead, fetch_of_255_lt, fun _ _ => stepWith_of_fetch_error⟩

/-- Settles O6: a fetch that succeeds and decodes leaves only the execution. -/
theorem stepRunsTheDecodedInstruction : Obligations.StepRunsTheDecodedInstruction :=
  ⟨fun _ _ => stepWith_of_decode, fun _ _ _ => stepWith_of_decode, fun _ => rfl⟩

/-- Settles O8: where the fetch succeeds the decoder rejects the byte, elsewhere the fetch faults first. -/
theorem illegalOpcodeFaults : Obligations.IllegalOpcodeFaults :=
  fun _ _ hrun hillegal =>
    ⟨fun hpc => stepWith_of_illegal hrun hpc hillegal,
      fun hpc => stepWith_of_fetch_error hrun (fetch_of_lookahead hpc)⟩

/-- Settles O9: the run-state is looked at before anything else. -/
theorem noStepOutsideRunning : Obligations.NoStepOutsideRunning :=
  fun _ _ => ⟨stepWith_of_halted, stepWith_of_faulted, fun _ h => (stepWith_next_iff.1 h).1⟩

/-- Settles O10, by fault entry. -/
theorem faultEntryIsPrecise : Obligations.FaultEntryIsPrecise :=
  fun _ _ _ _ _ => stepWith_raised

/-- Settles O41: fault entry keeps memory, `pc` and flags, and sets the record together with the run-state. -/
theorem faultKeepsTheInvariant : Obligations.FaultKeepsTheInvariant := by
  intro s t c n hs h
  obtain ⟨-, rfl⟩ := stepWith_raised h
  exact ⟨hs.memory, hs.pcRange, hs.flags, iff_of_false nofun (fun h => h rfl)⟩

/-- Under an admissible map the instruction that 0x01 selects is HLT, and no other byte selects it. -/
theorem withOperands_eq_hlt_iff {map : OpcodeMap} (hmap : map.Admissible) {m : Mnemonic} {a b : Byte} :
    m.withOperands a b = .hlt ↔ map m = 0x01 := by
  constructor
  · intro h
    have hm : m = .hlt := (m.withOperands_mnemonic a b).symm.trans (congrArg Instr.mnemonic h)
    rw [hm, hmap.hlt]
  · intro h
    obtain rfl := hmap.injective m .hlt (h.trans hmap.hlt.symm)
    rfl

/-- The run-state after a step: HALTED exactly when the byte at `pc` is 0x01 (10_state.md R33). -/
theorem stepWith_next_run {map : OpcodeMap} (hmap : map.Admissible) {s t : State} (h : stepWith map s = .next t) :
    t.run = if s.mem.read s.pc.toNat = 0x01 then .halted else .running := by
  obtain ⟨hrun, i, hfetch, hexec⟩ := stepWith_next_iff.1 h
  obtain ⟨m, hlookup, rfl⟩ := decodeWith_ok_iff.1 (fetchInstr_ok_iff.1 hfetch).2
  rw [(retires_of_exec_next hexec).run, hrun, ← (OpcodeMap.lookup_some_iff hmap.injective).1 hlookup]
  simp only [withOperands_eq_hlt_iff hmap]

/-- Settles O37: a step that retires leaves the run-state that its byte at `pc` tells, and a fault enters FAULTED. -/
theorem runStateTransitions : Obligations.RunStateTransitions := by
  refine ⟨rfl, fun map hmap => ⟨fun s t h => ⟨(stepWith_next_iff.1 h).1, fun hne => ?_, fun heq => ?_⟩,
    fun s t c n h => ?_, fun s hrun t h => hrun (stepWith_next_iff.1 h).1⟩⟩
  · rw [stepWith_next_run hmap h, if_neg hne]
  · rw [stepWith_next_run hmap h, if_pos heq]
  · obtain ⟨hrun, rfl⟩ := stepWith_raised h
    exact ⟨hrun, rfl⟩

/-! ### The illegal opcodes: 30_encoding.md R87 -/

section Illegal

variable {map : OpcodeMap}

/-- Of the two formats without operands HLT alone does not set the program counter. -/
theorem eq_hlt_of_operandCount_of_setsPc (m : Mnemonic) : m.operandCount = 0 → m.setsPc = false → m = .hlt := by
  cases m <;> decide

/-- 0x00 has the count and the `setpc` bit of HLT alone, whose value is 0x01. -/
theorem admissible_ne_zero (hmap : map.Admissible) (m : Mnemonic) : map m ≠ 0x00 := by
  intro h
  have hcount : m.operandCount = 0 := by rw [← hmap.count, h]; rfl
  have hsetsPc : m.setsPc = false := by rw [← hmap.setsPc, h]; rfl
  rw [eq_hlt_of_operandCount_of_setsPc m hcount hsetsPc, hmap.hlt] at h
  exact absurd h (by decide)

/-- No instruction has three operands. -/
theorem admissible_ne_of_count_eq_three (hmap : map.Admissible) {ir : Byte} (hir : opcodeCount ir = 3)
    (m : Mnemonic) : map m ≠ ir := by
  rintro rfl
  have hle := m.operandCount_le_two
  rw [hmap.count] at hir
  omega

/-- The numbers of the bytes that select an instruction are those of the 24 values of the map. -/
theorem filter_lookup_isSome_perm (hmap : map.Admissible) :
    ((List.range 256).filter (fun n => (map.lookup (BitVec.ofNat 8 n)).isSome)).Perm
      (Mnemonic.all.map (fun m => (map m).toNat)) := by
  have hvalues : (Mnemonic.all.map (fun m => (map m).toNat)).Nodup :=
    List.Nodup.map (fun m n h => hmap.injective m n (BitVec.eq_of_toNat_eq h)) (by decide)
  refine (List.perm_ext_iff_of_nodup (List.nodup_range.filter _) hvalues).2 fun n => ?_
  simp only [List.mem_filter, List.mem_range, Option.isSome_iff_exists, OpcodeMap.lookup_some_iff hmap.injective,
    List.mem_map]
  constructor
  · rintro ⟨hn, m, hm⟩
    exact ⟨m, m.mem_all, by rw [hm, BitVec.toNat_ofNat, Nat.mod_eq_of_lt hn]⟩
  · rintro ⟨m, -, rfl⟩
    exact ⟨(map m).isLt, m, by rw [BitVec.ofNat_toNat, BitVec.setWidth_eq]⟩

/-- Of the 256 values 24 select an instruction, so 232 select none. -/
theorem length_filter_lookup_isNone (hmap : map.Admissible) :
    ((List.range 256).filter (fun n => (map.lookup (BitVec.ofNat 8 n)).isNone)).length = 232 := by
  have hsplit := List.length_eq_length_filter_add (l := List.range 256)
    (fun n => (map.lookup (BitVec.ofNat 8 n)).isSome)
  have hsome := (filter_lookup_isSome_perm hmap).length_eq
  rw [List.length_map, show Mnemonic.all.length = 24 from rfl] at hsome
  simp only [Option.not_isSome, List.length_range, hsome] at hsplit
  omega

end Illegal

/-- Settles O3: the lookup alone rejects, and the map's values are 24 of the 256. -/
theorem illegalOpcodesAreTheOther232 : Obligations.IllegalOpcodesAreTheOther232 := by
  refine fun map hmap => ⟨fun ir a b => ?_, fun m a b => ⟨_, selects_withOperands m map hmap a b⟩,
    admissible_ne_zero hmap, fun _ => admissible_ne_of_count_eq_three hmap, length_filter_lookup_isNone hmap,
    fun s ir hrun hpc hir hillegal => ?_⟩
  · rw [decodeWith_error_iff, and_iff_left rfl, OpcodeMap.lookup_none_iff]
  · subst hir
    exact stepWith_of_illegal hrun hpc hillegal

end Sys2Proof.Machine
end

section
/-!
PROOFS. The checks of a step in their fixed order (60_exceptions.md R202, R208), and the obligations
HandlersCheckTheirRegisterOperands, StepRaisesTheFirstFailingCheck and OnlyTheListedFaultsOccur.
-/

namespace Sys2Proof.Machine

open Sys2Proof.Claims

/-! ### The checks of a handler -/

/-- The first of some operand bytes that names no register (42_alu.md R158). -/
def firstLarge (operands : List Byte) : Option Byte := operands.find? (fun x => decide (7 < x.toNat))

theorem firstLarge_cons_of_lt {a : Byte} (h : 7 < a.toNat) (rest : List Byte) : firstLarge (a :: rest) = some a :=
  List.find?_cons_of_pos (by simpa using h)

theorem firstLarge_cons_of_not_lt {a : Byte} (h : ¬ 7 < a.toNat) (rest : List Byte) :
    firstLarge (a :: rest) = firstLarge rest :=
  List.find?_cons_of_neg (by simpa using h)

/-- The outcome `o` is the fault of the first of the operands that names no register, and is as `completes` says when
every one names a register. -/
structure Checked (operands : List Byte) (s : State) (completes : Result → Prop) (o : Result) : Prop where
  fault : ∀ x, firstLarge operands = some x → o = faultOf s .outOfRangeAddress x.toNat
  completes : firstLarge operands = none → completes o

section Checks

variable {operands : List Byte} {i : Instr} {s : State} {completes : Result → Prop} {a b : Byte}

/-- With no operand left to check the outcome is that of the rest of the handler. -/
theorem checked_nil {o : Result} (h : completes o) : Checked [] s completes o := ⟨nofun, fun _ => h⟩

/-- A register check in front of a handler puts its operand before the handler's own. -/
theorem checked_regIndex {k : Fin 8 → Attempt State}
    (h : ∀ d : Fin 8, a.toNat = d.val → Checked operands s completes (settle s (k d))) :
    Checked (a :: operands) s completes (settle s (regIndex a >>= k)) := by
  by_cases ha : 7 < a.toNat
  · refine ⟨fun x hx => ?_, fun hnone => ?_⟩
    · rw [firstLarge_cons_of_lt ha, Option.some.injEq] at hx
      rw [← hx, settle_regIndex_of_large ha]
    · rw [firstLarge_cons_of_lt ha] at hnone
      cases hnone
  · have hd : regIndex a = .ok ⟨a.toNat, by omega⟩ := regIndex_of_val rfl
    obtain ⟨hfault, hcompletes⟩ := h ⟨a.toNat, by omega⟩ rfl
    rw [hd, attempt_ok_bind]
    exact ⟨fun x hx => hfault x (firstLarge_cons_of_not_lt ha operands ▸ hx),
      fun hnone => hcompletes (firstLarge_cons_of_not_lt ha operands ▸ hnone)⟩

/-! ### What is left after the register checks -/

/-- A MOD with a zero divisor raises, everything else retires (42_alu.md R145). -/
def Completes (i : Instr) (s : State) (o : Result) : Prop :=
  (∀ a b, i = .mod a b → namedRegister s b = 0 → o = faultOf s .divideByZero s.pc.toNat) ∧
  ((∀ a b, i = .mod a b → namedRegister s b ≠ 0) → ∃ t, o = .next t)

theorem completes_of_next (hi : ∀ a b, i ≠ .mod a b) (t : State) : Completes i s (.next t) :=
  ⟨fun a b h => absurd h (hi a b), fun _ => ⟨t, rfl⟩⟩

/-- A handler that only checks one register before it retires. -/
theorem checked_oneRegister (hi : ∀ a b, i ≠ .mod a b) (k : Fin 8 → State) :
    Checked [a] s (Completes i s) (settle s (regIndex a >>= fun d => pure (k d))) :=
  checked_regIndex fun _ _ => checked_nil (completes_of_next hi _)

/-- A handler that only checks two registers before it retires. -/
theorem checked_twoRegisters (hi : ∀ a b, i ≠ .mod a b) (k : Fin 8 → Fin 8 → State) :
    Checked [a, b] s (Completes i s) (settle s (regIndex a >>= fun d => regIndex b >>= fun r => pure (k d r))) :=
  checked_regIndex fun _ _ => checked_regIndex fun _ _ => checked_nil (completes_of_next hi _)

/-- The divisor is checked after both registers. -/
theorem checked_execMod (a b : Byte) (s : State) :
    Checked [a, b] s (Completes (.mod a b) s) (execMod a b s) := by
  refine checked_regIndex fun d _ => checked_regIndex fun r hr => checked_nil ?_
  by_cases hz : s.reg r = 0
  · rw [if_pos hz, attempt_throw, settle_error]
    exact ⟨fun _ _ _ _ => rfl, fun hne => absurd ((namedRegister_of_val hr s).trans hz) (hne a b rfl)⟩
  · rw [if_neg hz, attempt_pure, settle_ok]
    refine ⟨fun a' b' h hzero => ?_, fun _ => ⟨_, rfl⟩⟩
    cases h
    exact absurd ((namedRegister_of_val hr s).symm.trans hzero) hz

end Checks

/-- Every instruction checks exactly its register operands, in their order. -/
theorem exec_checked (i : Instr) (s : State) : Checked i.registerOperands s (Completes i s) (exec i s) := by
  cases i with
  | hlt => exact checked_nil (completes_of_next (by nofun) _)
  | ldi a imm => exact checked_oneRegister (by nofun) _
  | prn a => exact checked_oneRegister (by nofun) _
  | pra a => exact checked_oneRegister (by nofun) _
  | add a b => exact checked_twoRegisters (by nofun) _
  | sub a b => exact checked_twoRegisters (by nofun) _
  | mul a b => exact checked_twoRegisters (by nofun) _
  | mod a b => exact checked_execMod a b s
  | inc a => exact checked_oneRegister (by nofun) _
  | dec a => exact checked_oneRegister (by nofun) _
  | cmp a b => exact checked_twoRegisters (by nofun) _
  | and a b => exact checked_twoRegisters (by nofun) _
  | or a b => exact checked_twoRegisters (by nofun) _
  | xor a b => exact checked_twoRegisters (by nofun) _
  | not a => exact checked_oneRegister (by nofun) _
  | shl a b => exact checked_twoRegisters (by nofun) _
  | shr a b => exact checked_twoRegisters (by nofun) _
  | push a =>
    refine checked_regIndex fun r _ => checked_nil ?_
    simp only [storeAtSp_eq, attempt_ok_bind]
    exact completes_of_next (by nofun) _
  | pop a =>
    refine checked_regIndex fun d _ => checked_nil ?_
    rw [loadAtSp_eq, attempt_ok_bind]
    exact completes_of_next (by nofun) _
  | call a =>
    refine checked_regIndex fun r _ => checked_nil ?_
    simp only [storeAtSp_eq, attempt_ok_bind]
    exact completes_of_next (by nofun) _
  | ret =>
    rw [exec_ret_eq]
    exact checked_nil (completes_of_next (by nofun) _)
  | jmp a => exact checked_oneRegister (by nofun) _
  | jeq a => exact checked_oneRegister (by nofun) _
  | jne a => exact checked_oneRegister (by nofun) _

/-- Settles O13: the handler's checks, and what is left after them. -/
theorem handlersCheckTheirRegisterOperands : Obligations.HandlersCheckTheirRegisterOperands := by
  intro i s
  obtain ⟨hfault, hcompletes⟩ := exec_checked i s
  split
  · next x hx => exact hfault x hx
  · next hnone => exact hcompletes hnone

/-! ### The checks of a step -/

/-- Which operand bytes a mnemonic's instruction checks. -/
theorem registerOperands_withOperands (m : Mnemonic) (a b : Byte) :
    (m.withOperands a b).registerOperands =
      if m = .hlt ∨ m = .ret then [] else if m ∈ usesRegisterB then [a, b] else [a] := by
  cases m <;> rfl

/-- The register checks of R208 are those of the decoded instruction. -/
theorem firstLarge_withOperands (m : Mnemonic) (a b : Byte) :
    firstLarge (m.withOperands a b).registerOperands =
      if m ≠ .hlt ∧ m ≠ .ret ∧ 7 < a.toNat then some a
      else if m ∈ usesRegisterB ∧ 7 < b.toNat then some b else none := by
  have hb : firstLarge [b] = if 7 < b.toNat then some b else none := by
    split
    · next h => exact firstLarge_cons_of_lt h []
    · next h => exact firstLarge_cons_of_not_lt h []
  rw [registerOperands_withOperands]
  by_cases hnone : m = .hlt ∨ m = .ret
  · have hm : m ∉ usesRegisterB := by rcases hnone with rfl | rfl <;> decide
    rw [if_pos hnone, if_neg (fun h => hnone.elim h.1 h.2.1), if_neg (fun h => hm h.1)]
    rfl
  rw [if_neg hnone]
  by_cases ha : 7 < a.toNat
  · have hlargeA : m ≠ .hlt ∧ m ≠ .ret ∧ 7 < a.toNat := ⟨fun h => hnone (.inl h), fun h => hnone (.inr h), ha⟩
    rw [if_pos hlargeA]
    split <;> exact firstLarge_cons_of_lt ha _
  rw [if_neg (c := m ≠ .hlt ∧ m ≠ .ret ∧ 7 < a.toNat) (fun h => ha h.2.2)]
  by_cases hm : m ∈ usesRegisterB
  · rw [if_pos hm, firstLarge_cons_of_not_lt ha, hb]
    simp only [hm, true_and]
  · rw [if_neg hm, firstLarge_cons_of_not_lt ha, if_neg (fun h => hm h.1)]
    rfl

section FirstFault

variable {map : OpcodeMap} {s : State}

theorem firstFault_of_255_lt (hpc : 255 < s.pc.toNat) :
    firstFault map s = some (.outOfRangeAddress, s.pc.toNat) := if_pos hpc

/-- At 254 and 255 the first address that fails is 256. -/
theorem firstFault_of_lookahead (hpc : s.pc.toNat = 254 ∨ s.pc.toNat = 255) :
    firstFault map s = some (.outOfRangeAddress, 256) := by
  rcases hpc with hpc | hpc <;> simp [firstFault, hpc]

theorem firstFault_of_illegal (hpc : s.pc.toNat ≤ 253) (h : ∀ m, map m ≠ s.mem.read s.pc.toNat) :
    firstFault map s = some (.illegalInstruction, (s.mem.read s.pc.toNat).toNat) := by
  have hir : s.mem.read s.pc.toNat ∉ Mnemonic.all.map map := by simp [h]
  simp only [firstFault]
  rw [if_neg (by omega), if_neg (by omega), if_neg (by omega), if_pos hir]

/-- Where the opcode is that of `m` the checks are the register checks of the decoded instruction, then MOD's
divisor. -/
theorem firstFault_of_opcode (hmap : map.Admissible) (hpc : s.pc.toNat ≤ 253) {m : Mnemonic}
    (hopcode : s.mem.read s.pc.toNat = map m) :
    firstFault map s =
      match firstLarge (m.withOperands (s.mem.read (s.pc.toNat + 1))
        (s.mem.read (s.pc.toNat + 2))).registerOperands with
      | some x => some (.outOfRangeAddress, x.toNat)
      | none =>
        if m = .mod ∧ namedRegister s (s.mem.read (s.pc.toNat + 2)) = 0 then some (.divideByZero, s.pc.toNat)
        else none := by
  have hinj (n : Mnemonic) : map m = map n ↔ m = n := ⟨hmap.injective m n, congrArg map⟩
  have hmem (l : List Mnemonic) : map m ∈ l.map map ↔ m ∈ l :=
    List.mem_map_of_injective fun m n => hmap.injective m n
  simp only [firstFault, hopcode, hmem, hinj, ne_eq, gt_iff_lt]
  rw [if_neg (by omega), if_neg (by omega), if_neg (by omega), if_neg (not_not.2 m.mem_all), firstLarge_withOperands]
  split_ifs <;> rfl

end FirstFault

/-- Settles O11: the fetch addresses and the opcode are checked before the handler's own checks. -/
theorem stepRaisesTheFirstFailingCheck : Obligations.StepRaisesTheFirstFailingCheck := by
  intro map hmap s hrun
  by_cases hgt : 255 < s.pc.toNat
  · rw [firstFault_of_255_lt hgt]
    exact stepWith_of_fetch_error hrun (fetch_of_255_lt hgt)
  by_cases hlook : s.pc.toNat = 254 ∨ s.pc.toNat = 255
  · rw [firstFault_of_lookahead hlook]
    exact stepWith_of_fetch_error hrun (fetch_of_lookahead hlook)
  have hpc : s.pc.toNat ≤ 253 := by omega
  by_cases hillegal : ∀ m, map m ≠ s.mem.read s.pc.toNat
  · rw [firstFault_of_illegal hpc hillegal]
    exact stepWith_of_illegal hrun hpc hillegal
  · push Not at hillegal
    obtain ⟨m, hm⟩ := hillegal
    have hchecked := exec_checked
      (m.withOperands (s.mem.read (s.pc.toNat + 1)) (s.mem.read (s.pc.toNat + 2))) s
    rw [← stepWith_eq_exec_of_opcode hmap hrun hpc hm.symm] at hchecked
    rw [firstFault_of_opcode hmap hpc hm.symm]
    cases hlarge : firstLarge (m.withOperands (s.mem.read (s.pc.toNat + 1))
      (s.mem.read (s.pc.toNat + 2))).registerOperands with
    | some x => exact hchecked.fault x hlarge
    | none =>
      obtain ⟨hzero, hretires⟩ := hchecked.completes hlarge
      by_cases hmod : m = .mod ∧ namedRegister s (s.mem.read (s.pc.toNat + 2)) = 0
      · simp only [if_pos hmod]
        obtain ⟨rfl, hdivisor⟩ := hmod
        exact hzero _ _ rfl hdivisor
      · simp only [if_neg hmod]
        refine hretires fun a b hi hdivisor => hmod ?_
        obtain rfl : m = .mod := (m.withOperands_mnemonic _ _).symm.trans (congrArg Instr.mnemonic hi)
        cases hi
        exact ⟨rfl, hdivisor⟩

/-- What the first failing check can be, from a `pc` of at most 256 (60_exceptions.md R200 to R204). -/
theorem firstFault_eq_some {map : OpcodeMap} {s : State} {c : FaultCause} {n : Nat} (hpc : s.pc.toNat ≤ 256)
    (h : firstFault map s = some (c, n)) :
    (c = .outOfRangeAddress ∧ n = 256 ∧ 254 ≤ s.pc.toNat) ∨
    (c = .outOfRangeAddress ∧ 8 ≤ n ∧ n ≤ 255 ∧ s.pc.toNat ≤ 253) ∨
    (c = .illegalInstruction ∧ n = (s.mem.read s.pc.toNat).toNat ∧ s.pc.toNat ≤ 253) ∨
    (c = .divideByZero ∧ n = s.pc.toNat ∧ s.mem.read s.pc.toNat = map .mod) := by
  have ha := (s.mem.read (s.pc.toNat + 1)).isLt
  have hb := (s.mem.read (s.pc.toNat + 2)).isLt
  simp only [firstFault] at h
  split_ifs at h with hpc0 hpc1 hpc2 hlegal hlargeA hlargeB hzero <;> cases h
  · exact .inl ⟨rfl, by omega, by omega⟩
  · exact .inl ⟨rfl, by omega, by omega⟩
  · exact .inl ⟨rfl, by omega, by omega⟩
  · exact .inr (.inl ⟨rfl, hlargeA.2.2, by omega, by omega⟩)
  · exact .inr (.inl ⟨rfl, hlargeB.2, by omega, by omega⟩)
  · exact .inr (.inr (.inr ⟨rfl, rfl, hzero.1⟩))
  · exact .inr (.inr (.inl ⟨rfl, rfl, by omega⟩))

/-- Settles O12: a step settles an attempt, and the fault it raises is the first failing check. -/
theorem onlyTheListedFaultsOccur : Obligations.OnlyTheListedFaultsOccur := by
  intro map hmap s hrun hpc
  refine ⟨fun r h => ?_, fun f hf => ?_⟩
  · obtain ⟨x, hx⟩ := stepWith_settles map hrun
    exact settle_not_refused (hx.symm.trans h)
  · have hfirst := stepRaisesTheFirstFailingCheck map hmap s hrun
    cases hcheck : firstFault map s with
    | none =>
      rw [hcheck] at hfirst
      obtain ⟨t, ht⟩ := hfirst
      cases ht.symm.trans hf
    | some fault =>
      obtain ⟨c, n⟩ := fault
      rw [hcheck] at hfirst
      cases hf.symm.trans hfirst
      exact ⟨c, n, rfl, firstFault_eq_some hpc hcheck⟩

end Sys2Proof.Machine
end

section
/-!
PROOFS. The two-register instructions beside ADD, MUL, AND and OR, the conditional jumps, and the obligations
SubAndXorAsSupplied, ShiftsTakeTheWholeByteAsCount, ModIsTheUnsignedRemainder, CmpReplacesTheFlags, SameRegisterTwice
and ConditionalJumpsTestTheWholeByte.
-/

namespace Sys2Proof.Machine

open Sys2Proof.Claims

/-! ### The values -/

theorem aluSub_toNat (x y : Byte) : ((aluSub x y).toNat : Int) = ((x.toNat : Int) - y.toNat) % 256 :=
  wrap8_toNat _

theorem aluXor_getLsbD (x y : Byte) (k : Nat) : (aluXor x y).getLsbD k = (x.getLsbD k != y.getLsbD k) :=
  BitVec.getLsbD_xor

theorem aluShl_toNat (x count : Byte) : (aluShl x count).toNat = x.toNat * 2 ^ count.toNat % 256 := by
  have hcast : ((x.toNat * 2 ^ count.toNat : Nat) : Int) = (x.toNat : Int) * 2 ^ count.toNat := by push_cast; rfl
  rw [aluShl, ← hcast, wrap8_natCast_toNat]

/-- From a count of 8 on every bit is shifted out on the left. -/
theorem aluShl_of_le (x : Byte) {count : Byte} (h : 8 ≤ count.toNat) : aluShl x count = 0 := by
  have hdvd : 256 ∣ x.toNat * 2 ^ count.toNat := Dvd.dvd.mul_left (pow_dvd_pow 2 h) x.toNat
  apply BitVec.eq_of_toNat_eq
  rw [aluShl_toNat, Nat.mod_eq_zero_of_dvd hdvd]
  rfl

theorem aluShr_toNat (x count : Byte) : (aluShr x count).toNat = x.toNat / 2 ^ count.toNat := by
  have hcast : ((x.toNat / 2 ^ count.toNat : Nat) : Int) = (x.toNat : Int) / 2 ^ count.toNat := by push_cast; rfl
  have hle : x.toNat / 2 ^ count.toNat ≤ x.toNat := Nat.div_le_self _ _
  rw [aluShr, ← hcast, wrap8_natCast_toNat, Nat.mod_eq_of_lt (hle.trans_lt x.isLt)]

/-- From a count of 8 on every bit is shifted out on the right. -/
theorem aluShr_of_le (x : Byte) {count : Byte} (h : 8 ≤ count.toNat) : aluShr x count = 0 := by
  have hlt : x.toNat < 2 ^ count.toNat := x.isLt.trans_le (Nat.pow_le_pow_right (by decide) h)
  apply BitVec.eq_of_toNat_eq
  rw [aluShr_toNat, Nat.div_eq_of_lt hlt]
  rfl

theorem aluMod_toNat (x y : Byte) : (aluMod x y).toNat = x.toNat % y.toNat := by
  have hle : x.toNat % y.toNat ≤ x.toNat := Nat.mod_le _ _
  have hcast : ((x.toNat % y.toNat : Nat) : Int) = (x.toNat : Int) % y.toNat := by push_cast; rfl
  rw [aluMod, ← hcast, wrap8_natCast_toNat, Nat.mod_eq_of_lt (hle.trans_lt x.isLt)]

theorem compareFlags_of_eq {x y : Byte} (h : x.toNat = y.toNat) : compareFlags x y = 0b00000001 :=
  if_pos (BitVec.eq_of_toNat_eq h)

theorem compareFlags_of_gt {x y : Byte} (h : x.toNat > y.toNat) : compareFlags x y = 0b00000010 := by
  have hne : x ≠ y := fun heq => by rw [heq] at h; omega
  rw [compareFlags, if_neg hne, if_pos h]
  rfl

theorem compareFlags_of_lt {x y : Byte} (h : x.toNat < y.toNat) : compareFlags x y = 0b00000100 := by
  have hne : x ≠ y := fun heq => by rw [heq] at h; omega
  rw [compareFlags, if_neg hne, if_neg (by omega)]
  rfl

/-! ### SUB, XOR, SHL and SHR -/

/-- Settles O18: SUB and XOR are the two-register form; the remainder of SUB is taken on the integers. -/
theorem subAndXorAsSupplied : Obligations.SubAndXorAsSupplied :=
  ⟨twoRegisterRule_of_writeBinary (selects_withOperands .sub) (fun _ _ _ => rfl) aluSub_toNat,
    twoRegisterRule_of_writeBinary (selects_withOperands .xor) (fun _ _ _ => rfl)
      (fun x y k _ => aluXor_getLsbD x y k)⟩

/-- Settles O23: SHL and SHR are the two-register form, and 2 to a count of 8 or more is a multiple of 256, above every
byte. -/
theorem shiftsTakeTheWholeByteAsCount : Obligations.ShiftsTakeTheWholeByteAsCount :=
  ⟨twoRegisterRule_of_writeBinary (selects_withOperands .shl) (fun _ _ _ => rfl)
      (fun x y => ⟨aluShl_toNat x y, aluShl_of_le x⟩),
    twoRegisterRule_of_writeBinary (selects_withOperands .shr) (fun _ _ _ => rfl)
      (fun x y => ⟨aluShr_toNat x y, aluShr_of_le x⟩)⟩

/-! ### MOD and CMP -/

/-- An instruction with two register operands checks `a` before `b`. -/
theorem twoRegisterChecks_of_registerOperands {mk : Byte → Byte → Instr}
    (h : ∀ a b, (mk a b).registerOperands = [a, b]) : TwoRegisterChecks mk := by
  intro a b s
  have hfault := (exec_checked (mk a b) s).fault
  rw [h] at hfault
  refine ⟨fun ha => hfault a (firstLarge_cons_of_lt ha _), fun ha hb => hfault b ?_⟩
  rw [firstLarge_cons_of_not_lt (by omega), firstLarge_cons_of_lt hb]

/-- A zero divisor raises once both operands name registers. -/
theorem exec_mod_of_zero {a b : Byte} {d r : Fin 8} {s : State} (ha : a.toNat = d.val) (hb : b.toNat = r.val)
    (hz : s.reg r = 0) : exec (.mod a b) s = faultOf s .divideByZero s.pc.toNat := by
  have hnone : firstLarge [a, b] = none := by
    rw [firstLarge_cons_of_not_lt (by omega), firstLarge_cons_of_not_lt (by omega)]
    rfl
  exact ((exec_checked (.mod a b) s).completes hnone).1 a b rfl ((namedRegister_of_val hb s).trans hz)

/-- Settles O19: a nonzero divisor leaves the remainder of the division, below the divisor. -/
theorem modIsTheUnsignedRemainder : Obligations.ModIsTheUnsignedRemainder := by
  refine ⟨selects_withOperands .mod, twoRegisterChecks_of_registerOperands fun _ _ => rfl,
    fun a b d r s ha hb hz => exec_mod_of_zero ha hb hz, fun a b d r s ha hb hz hpc => ?_⟩
  have hpos : 0 < (s.reg r).toNat := Nat.pos_of_ne_zero fun h => hz (BitVec.eq_of_toNat_eq h)
  refine ⟨_, execMod_next_iff.2 ⟨d, r, ha, hb, hz, rfl⟩, ?_, ⟨(s.reg d).toNat / (s.reg r).toNat, ?_⟩,
    onlyRegisterWritten_setReg_advance d _ hpc le_rfl⟩
  · rw [State.advance_reg, State.reg_setReg_self, aluMod_toNat]
    exact Nat.mod_lt _ hpos
  · rw [State.advance_reg, State.reg_setReg_self, aluMod_toNat, Nat.div_add_mod']

/-- Settles O21: CMP writes the flags alone, with the value of the three-way comparison. -/
theorem cmpReplacesTheFlags : Obligations.CmpReplacesTheFlags := by
  refine ⟨selects_withOperands .cmp, twoRegisterChecks_of_registerOperands fun _ _ => rfl,
    fun a b p q s ha hb hpc => ?_⟩
  exact ⟨_, execCmp_next_iff.2 ⟨p, q, ha, hb, rfl⟩, compareFlags_of_eq, compareFlags_of_gt, compareFlags_of_lt,
    fun _ => rfl, State.advance_pc_toNat (s := { s with fl := _ }) hpc le_rfl, fun _ => rfl, rfl, rfl, rfl⟩

/-! ### The same register twice -/

/-- The two-register form with one register for both operands. -/
theorem reg_of_writeBinary_same {f : Byte → Byte → Byte} {a : Byte} {d : Fin 8} {s t : State} (ha : a.toNat = d.val)
    (h : settle s (writeBinary f a a s) = .next t) : t.reg d = f (s.reg d) (s.reg d) := by
  obtain ⟨d', r, hd, hr, rfl⟩ := writeBinary_ok_iff.1 (settle_next_iff.1 h)
  obtain rfl : d' = d := Fin.ext (hd.symm.trans ha)
  obtain rfl : r = d' := Fin.ext (hr.symm.trans ha)
  rw [State.advance_reg, State.reg_setReg_self]

theorem aluSub_self (x : Byte) : aluSub x x = 0 := by
  have h := aluSub_toNat x x
  apply BitVec.eq_of_toNat_eq
  rw [sub_self] at h
  exact_mod_cast h

theorem aluMod_self (x : Byte) : aluMod x x = 0 := by
  apply BitVec.eq_of_toNat_eq
  rw [aluMod_toNat, Nat.mod_self]
  rfl

/-- MOD of a register by itself retires for a nonzero value alone, and leaves 0. -/
theorem exec_mod_same {a : Byte} {d : Fin 8} {s t : State} (ha : a.toNat = d.val)
    (h : exec (.mod a a) s = .next t) : s.reg d ≠ 0 ∧ t.reg d = 0 := by
  obtain ⟨d', r, hd, hr, hz, rfl⟩ := execMod_next_iff.1 h
  obtain rfl : d' = d := Fin.ext (hd.symm.trans ha)
  obtain rfl : r = d' := Fin.ext (hr.symm.trans ha)
  refine ⟨hz, ?_⟩
  rw [State.advance_reg, State.reg_setReg_self, aluMod_self]

/-- CMP of a register with itself finds them equal. -/
theorem exec_cmp_same {a : Byte} {s t : State} (h : exec (.cmp a a) s = .next t) : t.fl = 0x01 := by
  obtain ⟨p, q, hp, hq, rfl⟩ := execCmp_next_iff.1 h
  obtain rfl : p = q := Fin.ext (hp.symm.trans hq)
  exact compareFlags_of_eq rfl

/-- Settles O30: each function of the two-register form at one value twice. -/
theorem sameRegisterTwice : Obligations.SameRegisterTwice := by
  refine fun a d s t ha => ⟨fun h => ?_, fun h => ?_, fun h => ?_, exec_mod_same ha, fun h => ?_, fun h => ?_,
    fun h => ?_, exec_cmp_same, fun h => ?_, fun h => ?_⟩
  · rw [reg_of_writeBinary_same ha h, aluAdd_toNat, two_mul]
  · rw [reg_of_writeBinary_same ha h, aluSub_self]
  · rw [reg_of_writeBinary_same ha h, aluMul_toNat]
  · rw [reg_of_writeBinary_same ha h, aluAnd, BitVec.and_self]
  · rw [reg_of_writeBinary_same ha h, aluOr, BitVec.or_self]
  · exact (reg_of_writeBinary_same ha h).trans BitVec.xor_self
  · rw [reg_of_writeBinary_same ha h, aluShl_toNat]
  · rw [reg_of_writeBinary_same ha h, aluShr_toNat]

/-! ### The conditional jumps -/

theorem jeqTaken_iff (fl : Byte) : jeqTaken fl = true ↔ fl = 0x01 := beq_iff_eq

theorem jneTaken_iff (fl : Byte) : jneTaken fl = true ↔ fl ≠ 0x01 := bne_iff_ne

/-- Settles O29: JEQ and JNE are the jump form with the tests of the whole byte. -/
theorem conditionalJumpsTestTheWholeByte : Obligations.ConditionalJumpsTestTheWholeByte :=
  ⟨jumpRule_of_jumpIf (selects_withOperands .jeq) (fun _ _ => rfl) jeqTaken_iff,
    jumpRule_of_jumpIf (selects_withOperands .jne) (fun _ _ => rfl) jneTaken_iff⟩

end Sys2Proof.Machine
end

section
/-!
PROOFS. The memory as data, the state after reset and after loading an image, and the obligations
MemoryAccessPrimitives, CanonicalMemoriesThatReadAlikeAreEqual, ResetGivesTheTableValues, ResetMeetsTheInvariant and
LoadedImageGivesTheStartState.
-/

namespace Sys2Proof.Machine

open Sys2Proof.Claims

/-! ### The access primitives: 20_memory.md R52, R53 -/

theorem memWrite_of_gt {s : State} {a : Nat} (h : 255 < a) (v : Byte) :
    memWrite s a v = .error ⟨.outOfRangeAddress, a⟩ := if_pos h

/-- Settles O44: the bound decides, and a write below it changes the one cell. -/
theorem memoryAccessPrimitives : Obligations.MemoryAccessPrimitives := by
  refine fun s addr v => ⟨fun h => ⟨memRead_of_gt h, memWrite_of_gt h v⟩, fun h => ⟨memRead_of_le h, ?_⟩⟩
  exact ⟨_, memWrite_of_le h v, fun hwf => Memory.read_write_self hwf addr v,
    fun _ hx => Memory.read_write_other s.mem hx v, rfl, rfl, rfl, rfl, rfl, rfl⟩

/-! ### The canonical form is one -/

theorem Memory.read_cons_self (a : Nat) (v : Byte) (m : Memory) : Memory.read ((a, v) :: m) a = v := if_pos rfl

theorem Memory.read_cons_of_ne {a x : Nat} (h : x ≠ a) (v : Byte) (m : Memory) :
    Memory.read ((a, v) :: m) x = Memory.read m x := if_neg h.symm

/-- The lowest listed address of a canonical memory is no lower than that of another which reads alike: there the other
reads a byte that is not 0x00. -/
theorem Memory.head_le_of_read_eq {lo lo' a b : Nat} {v w : Byte} {m n : Memory}
    (hm : Memory.wfFrom lo ((a, v) :: m) = true) (hn : Memory.wfFrom lo' ((b, w) :: n) = true)
    (h : ∀ x, Memory.read ((a, v) :: m) x = Memory.read ((b, w) :: n) x) : b ≤ a := by
  by_contra hlt
  obtain ⟨-, -, hv, -⟩ := (Memory.wfFrom_cons ..).1 hm
  obtain ⟨-, hb, hw, hwf⟩ := (Memory.wfFrom_cons ..).1 hn
  have hbelow : Memory.read ((b, w) :: n) a = 0 :=
    Memory.read_below (lo := b) ((Memory.wfFrom_cons ..).2 ⟨le_rfl, hb, hw, hwf⟩) (by omega)
  rw [← h, Memory.read_cons_self] at hbelow
  exact hv hbelow

/-- A canonical memory that lists a cell does not read as nothing written. -/
theorem Memory.wfFrom_cons_read_ne {lo a : Nat} {v : Byte} {m : Memory} (hm : Memory.wfFrom lo ((a, v) :: m) = true) :
    Memory.read ((a, v) :: m) a ≠ Memory.read [] a := by
  obtain ⟨-, -, hv, -⟩ := (Memory.wfFrom_cons ..).1 hm
  rwa [Memory.read_cons_self]

theorem Memory.eq_of_read_eq {lo lo' : Nat} {m n : Memory} (hm : Memory.wfFrom lo m = true)
    (hn : Memory.wfFrom lo' n = true) (h : ∀ x, m.read x = n.read x) : m = n := by
  induction m generalizing lo lo' n with
  | nil =>
    cases n with
    | nil => rfl
    | cons cell n => exact absurd (h _).symm (Memory.wfFrom_cons_read_ne hn)
  | cons cell m ih =>
    obtain ⟨a, v⟩ := cell
    cases n with
    | nil => exact absurd (h _) (Memory.wfFrom_cons_read_ne hm)
    | cons cell' n =>
      obtain ⟨b, w⟩ := cell'
      obtain rfl : a = b :=
        le_antisymm (Memory.head_le_of_read_eq hn hm fun x => (h x).symm) (Memory.head_le_of_read_eq hm hn h)
      obtain rfl : v = w := by simpa only [Memory.read_cons_self] using h a
      obtain ⟨-, -, -, hm'⟩ := (Memory.wfFrom_cons ..).1 hm
      obtain ⟨-, -, -, hn'⟩ := (Memory.wfFrom_cons ..).1 hn
      have htail (x : Nat) : Memory.read m x = Memory.read n x := by
        by_cases hx : x = a
        · subst hx
          rw [Memory.read_below hm' (by omega), Memory.read_below hn' (by omega)]
        · simpa only [Memory.read_cons_of_ne hx] using h x
      rw [ih hm' hn' htail]

/-- Settles O45, by induction on the first memory. -/
theorem canonicalMemoriesThatReadAlikeAreEqual : Obligations.CanonicalMemoriesThatReadAlikeAreEqual :=
  fun _ _ => Memory.eq_of_read_eq

/-! ### Reset: 10_state.md R39 -/

/-- Settles O38: the values of the table, register by register. -/
theorem resetGivesTheTableValues : Obligations.ResetGivesTheTableValues :=
  ⟨fun _ => rfl, by decide, rfl, rfl, rfl, rfl, rfl, rfl⟩

/-- Settles O39: the empty memory is canonical, and RUNNING has no fault record. -/
theorem resetMeetsTheInvariant : Obligations.ResetMeetsTheInvariant where
  memory := reset_mem_wf
  pcRange := Nat.zero_le 256
  flags := rfl
  record := iff_of_true rfl nofun

/-! ### Loading: 70_reset_and_hazards.md R232, R233 -/

/-- The host's store changes memory alone. -/
theorem State.poke_eq (s : State) (a : Nat) (v : Byte) : s.poke a v = { s with mem := (s.poke a v).mem } := by
  unfold State.poke
  split <;> rfl

theorem State.pokeBytes_eq (s : State) (a : Nat) (bytes : List Byte) :
    s.pokeBytes a bytes = { s with mem := (s.pokeBytes a bytes).mem } := by
  induction bytes generalizing s a with
  | nil => rfl
  | cons v rest ih =>
    rw [State.pokeBytes, ih, State.poke_eq]

theorem State.poke_read_self {s : State} (hwf : s.mem.wf = true) {a : Nat} (ha : a < 256) (v : Byte) :
    (s.poke a v).mem.read a = v := by
  rw [State.poke, if_pos ha]
  exact Memory.read_write_self hwf a v

theorem State.poke_read_of_ne (s : State) {a x : Nat} (hx : x ≠ a) (v : Byte) :
    (s.poke a v).mem.read x = s.mem.read x := by
  unfold State.poke
  split
  · exact Memory.read_write_other s.mem hx v
  · rfl

/-- Bytes stored from `a` upward leave every address below `a` as before. -/
theorem State.pokeBytes_read_of_lt (s : State) {a x : Nat} (hx : x < a) (bytes : List Byte) :
    (s.pokeBytes a bytes).mem.read x = s.mem.read x := by
  induction bytes generalizing s a with
  | nil => rfl
  | cons v rest ih => rw [State.pokeBytes, ih _ (by omega), State.poke_read_of_ne s (by omega)]

/-- Bytes stored from `a` upward leave every address after the last of them as before. -/
theorem State.pokeBytes_read_of_le (s : State) {a x : Nat} (bytes : List Byte) (hx : a + bytes.length ≤ x) :
    (s.pokeBytes a bytes).mem.read x = s.mem.read x := by
  induction bytes generalizing s a with
  | nil => rfl
  | cons v rest ih =>
    rw [List.length_cons] at hx
    rw [State.pokeBytes, ih _ (by omega), State.poke_read_of_ne s (by omega)]

/-- The `k`-th of the bytes stored from `a` upward reads back at `a + k`. -/
theorem State.pokeBytes_read {s : State} (hwf : s.mem.wf = true) {a : Nat} {bytes : List Byte}
    (hfits : a + bytes.length ≤ 256) {k : Nat} (hk : k < bytes.length) :
    (s.pokeBytes a bytes).mem.read (a + k) = bytes[k] := by
  induction bytes generalizing s a k with
  | nil => cases hk
  | cons v rest ih =>
    rw [List.length_cons] at hfits hk
    rw [State.pokeBytes]
    cases k with
    | zero => rw [State.pokeBytes_read_of_lt _ (by omega)]; exact State.poke_read_self hwf (by omega) v
    | succ k =>
      have hrest := ih (State.poke_wf hwf a v) (a := a + 1) (by omega) (k := k) (by omega)
      rwa [show a + (k + 1) = a + 1 + k by omega]

/-- Settles O46: the image is stored byte by byte into the memory of the reset state, which reads 0x00 above it. -/
theorem loadedImageGivesTheStartState : Obligations.LoadedImageGivesTheStartState := by
  refine fun image => ⟨fun hfits => ⟨State.reset.pokeBytes 0 image, if_neg (by simpa using hfits), fun k hk => ?_,
    fun k hk => ?_, State.pokeBytes_wf reset_mem_wf 0 image, ?_⟩, fun hlong => if_pos hlong⟩
  · simpa only [Nat.zero_add] using State.pokeBytes_read (a := 0) reset_mem_wf (by omega) hk
  · rw [State.pokeBytes_read_of_le _ _ (by omega)]
    rfl
  · rw [State.pokeBytes_eq]
    exact ⟨rfl, rfl, rfl, rfl, rfl, rfl⟩

end Sys2Proof.Machine
end

section
/-!
PROOFS. The host's side: the word placed for the next fetch, the rendering of the output and the program text, with the
obligations PlacedWordIsRunNext, RenderingOfTheOutput and LoaderTokensAreBytes.
-/

namespace Sys2Proof.Machine

open Sys2Proof.Claims

/-! ### The word that is fetched next: 10_state.md section 8 -/

/-- The load changes memory alone. -/
theorem State.withFetchWord_eq (s : State) (nbits w : Nat) :
    s.withFetchWord nbits w = { s with mem := (s.withFetchWord nbits w).mem } := State.pokeBytes_eq ..

theorem State.withFetchWord_pc (s : State) (nbits w : Nat) : (s.withFetchWord nbits w).pc = s.pc := by
  rw [State.withFetchWord_eq]

theorem State.withFetchWord_run (s : State) (nbits w : Nat) : (s.withFetchWord nbits w).run = s.run := by
  rw [State.withFetchWord_eq]

/-- Where the next fetch succeeds it reads the bytes of the word placed. -/
theorem bytesAtPc_withFetchWord {s : State} (hwf : s.mem.wf = true) (hpc : s.pc.toNat ≤ 253) (nbits w : Nat) :
    bytesAtPc (s.withFetchWord nbits w) = tableWordBytes nbits w := by
  have hfits : s.pc.toNat + (tableWordBytes nbits w).length ≤ 256 := by
    rw [show (tableWordBytes nbits w).length = 3 from rfl]
    omega
  have hread {k : Nat} (hk : k < 3) := State.pokeBytes_read hwf hfits hk
  rw [bytesAtPc, State.withFetchWord_pc]
  exact congrArg₂ _ (hread (k := 0) (by decide))
    (congrArg₂ _ (hread (k := 1) (by decide)) (congrArg₂ _ (hread (k := 2) (by decide)) rfl))

/-- Settles O48: the fetch reads the word's bytes, and the decoder gives the same answer for them there as in the
table. -/
theorem placedWordIsRunNext : Obligations.PlacedWordIsRunNext := by
  intro s nbits w hrun hpc hwf
  have hrun' : (s.withFetchWord nbits w).run = .running := (s.withFetchWord_run nbits w).trans hrun
  have hpc' : (s.withFetchWord nbits w).pc.toNat ≤ 253 := by rwa [State.withFetchWord_pc]
  have hbytes := bytesAtPc_withFetchWord hwf hpc nbits w
  unfold decodeTableWord
  cases hdecode : decode (tableWordBytes nbits w) with
  | ok i => exact stepWith_of_decode hrun' hpc' (hbytes ▸ hdecode)
  | error e =>
    obtain ⟨hlookup, -⟩ := decodeWith_error_iff.1 hdecode
    have hir : (s.withFetchWord nbits w).mem.read (s.withFetchWord nbits w).pc.toNat =
        BitVec.ofNat 8 (w % 2 ^ nbits) := List.head_eq_of_cons_eq hbytes
    have hstep := stepWith_of_illegal hrun' hpc' (hir ▸ OpcodeMap.lookup_none_iff.1 hlookup)
    rwa [hir, BitVec.toNat_ofNat] at hstep

/-! ### The rendering: 41_data_move_and_output.md R133 -/

theorem digitChar_eq_decimalDigit {d : Nat} (hd : d < 10) : Nat.digitChar d = decimalDigit d := by
  interval_cases d <;> rfl

theorem decimalDigits_eq_toDigits (v : Byte) : decimalDigits v = Nat.toDigits 10 v.toNat := by
  have hlt := v.isLt
  have hdigit {d : Nat} (hd : d < 10) : Nat.toDigits 10 d = [decimalDigit d] := by
    rw [Nat.toDigits_of_lt_base hd, digitChar_eq_decimalDigit hd]
  have hmore {n : Nat} (hn : 10 ≤ n) : Nat.toDigits 10 n = Nat.toDigits 10 (n / 10) ++ [decimalDigit (n % 10)] := by
    rw [Nat.toDigits_of_base_le (by decide) hn, digitChar_eq_decimalDigit (Nat.mod_lt _ (by decide))]
  simp only [decimalDigits]
  split
  · next h100 =>
    rw [hmore (by omega), hmore (n := v.toNat / 10) (by omega), Nat.div_div_eq_div_mul, hdigit (by omega)]
    rfl
  · split
    · next h10 =>
      rw [hmore h10, hdigit (by omega)]
      rfl
    · next h10 => rw [hdigit (by omega)]

/-- Settles O49: the decimal digits are those of Lean's own `toString`. -/
theorem renderingOfTheOutput : Obligations.RenderingOfTheOutput := by
  refine ⟨fun v => ?_, fun _ => rfl, rfl, fun _ _ => rfl⟩
  have hdigits : (toString v.toNat).toList = decimalDigits v := by
    rw [decimalDigits_eq_toDigits]
    exact String.toList_ofList
  rw [hdigits]
  rfl

end Sys2Proof.Machine
end

section
/-!
PROOFS. The program text (30_encoding.md R91, 70_reset_and_hazards.md R233): tokens, lines and the image they give, with
the obligation LoaderTokensAreBytes.
-/

namespace Sys2Proof.Machine

open Sys2Proof.Claims

/-! ### Tokens -/

theorem isBinaryDigit_iff {c : Char} : isBinaryDigit c = true ↔ c = '0' ∨ c = '1' := by
  simp [isBinaryDigit]

/-- A token is accepted when it is all binary digits and its value is a byte. -/
def TokenAccepted (token : List Char) : Prop := (∀ c ∈ token, c = '0' ∨ c = '1') ∧ binaryValue token ≤ 255

theorem tokenAccepted_iff {token : List Char} :
    (token.all isBinaryDigit && decide (binaryValue token ≤ 255)) = true ↔ TokenAccepted token := by
  simp [TokenAccepted, isBinaryDigit_iff]

theorem parseToken_of_accepted {token : List Char} (h : TokenAccepted token) :
    parseToken token = .ok (BitVec.ofNat 8 (binaryValue token)) := if_pos (tokenAccepted_iff.2 h)

theorem parseToken_of_not_accepted {token : List Char} (h : ¬ TokenAccepted token) :
    parseToken token = .error .programLoadError := if_neg fun h' => h (tokenAccepted_iff.1 h')

theorem parseToken_error {token : List Char} {e : LoadError} (h : parseToken token = .error e) :
    e = .programLoadError := by
  by_cases hacc : TokenAccepted token
  · cases (parseToken_of_accepted hacc).symm.trans h
  · cases (parseToken_of_not_accepted hacc).symm.trans h
    rfl

/-- The first digit is the most significant: a digit after the others doubles their value. -/
theorem binaryValue_append_digit (digits : List Char) (c : Char) :
    binaryValue (digits ++ [c]) = 2 * binaryValue digits + if c = '1' then 1 else 0 := by
  simp [binaryValue, List.foldl_append]

/-- Bit `k` of a byte, from the most significant, as a digit. -/
def msbDigit (v : Byte) (k : Nat) : Char := if v.getMsbD k then '1' else '0'

theorem msbDigit_isDigit (v : Byte) (k : Nat) : msbDigit v k = '0' ∨ msbDigit v k = '1' := by
  unfold msbDigit
  split
  · exact .inr rfl
  · exact .inl rfl

theorem msbDigit_value (v : Byte) {k : Nat} (hk : k < 8) :
    (if msbDigit v k = '1' then 1 else 0) = v.toNat / 2 ^ (7 - k) % 2 := by
  have hbit : v.getMsbD k = decide (v.toNat / 2 ^ (7 - k) % 2 = 1) := by
    rw [BitVec.getMsbD_eq_getLsbD, decide_eq_true hk, Bool.true_and, BitVec.getLsbD, Nat.testBit_eq_decide_div_mod_eq]
  obtain hzero | hone := Nat.mod_two_eq_zero_or_one (v.toNat / 2 ^ (7 - k))
  · simp [msbDigit, hbit, hzero]
  · simp [msbDigit, hbit, hone]

/-- The first `n` bits of a byte are its value without the bits below them. -/
theorem binaryValue_msbDigits (v : Byte) {n : Nat} (hn : n ≤ 8) :
    binaryValue ((List.range n).map (msbDigit v)) = v.toNat / 2 ^ (8 - n) := by
  induction n with
  | zero => exact (Nat.div_eq_of_lt v.isLt).symm
  | succ n ih =>
    have hhalf : v.toNat / 2 ^ (8 - n) = v.toNat / 2 ^ (7 - n) / 2 := by
      rw [Nat.div_div_eq_div_mul, ← pow_succ, show 7 - n + 1 = 8 - n by omega]
    rw [List.range_succ, List.map_append, List.map_singleton, binaryValue_append_digit, ih (by omega),
      msbDigit_value v hn, hhalf, show 8 - (n + 1) = 7 - n by omega, Nat.div_add_mod]

theorem parseToken_msbDigits (v : Byte) : parseToken ((List.range 8).map (msbDigit v)) = .ok v := by
  have hvalue : binaryValue ((List.range 8).map (msbDigit v)) = v.toNat :=
    (binaryValue_msbDigits v le_rfl).trans (Nat.div_one _)
  have hacc : TokenAccepted ((List.range 8).map (msbDigit v)) := by
    refine ⟨fun c hc => ?_, by have := v.isLt; omega⟩
    obtain ⟨k, -, rfl⟩ := List.mem_map.1 hc
    exact msbDigit_isDigit v k
  rw [parseToken_of_accepted hacc, hvalue, BitVec.ofNat_toNat, BitVec.setWidth_eq]

/-! ### The token of a line -/

theorem ne_hash_of_not_mem {text : List Char} (h : '#' ∉ text) : ∀ c ∈ text, (c != '#') = true :=
  fun _ hc => bne_iff_ne.2 fun heq => h (heq ▸ hc)

/-- What stands from the first `#` on does not count. -/
theorem lineToken_append_comment {text : List Char} (h : '#' ∉ text) (comment : List Char) :
    lineToken (text ++ '#' :: comment) = lineToken text := by
  have hcut : (text ++ '#' :: comment).takeWhile (fun c => c != '#') = text := by
    rw [List.takeWhile_append_of_pos (ne_hash_of_not_mem h)]
    exact List.append_nil text
  have hkeep : text.takeWhile (fun c => c != '#') = text := List.takeWhile_eq_self_iff.2 (ne_hash_of_not_mem h)
  simp only [lineToken, hcut, hkeep]

/-- Blanks in front of what begins with no blank are all that is dropped. -/
theorem dropWhile_blanks_append {blanks text : List Char} (hblanks : ∀ c ∈ blanks, c.isWhitespace = true)
    (htext : ∀ c, text.head? = some c → c.isWhitespace = false) :
    (blanks ++ text).dropWhile Char.isWhitespace = text := by
  rw [List.dropWhile_append_of_pos hblanks]
  cases text with
  | nil => rfl
  | cons c rest => exact List.dropWhile_cons_of_neg (by simp [htext c rfl])

/-- The trimming of a line's content. -/
theorem trim_eq {before token after : List Char} (hblanks : ∀ c ∈ before ++ after, c.isWhitespace = true)
    (hhead : ∀ c, token.head? = some c → c.isWhitespace = false)
    (hlast : ∀ c, token.getLast? = some c → c.isWhitespace = false) :
    (((before ++ token ++ after).dropWhile Char.isWhitespace).reverse.dropWhile Char.isWhitespace).reverse = token := by
  have hbefore (c : Char) (hc : c ∈ before) : c.isWhitespace = true := hblanks c (List.mem_append_left _ hc)
  have hafter (c : Char) (hc : c ∈ after.reverse) : c.isWhitespace = true :=
    hblanks c (List.mem_append_right _ (List.mem_reverse.1 hc))
  by_cases htoken : token = []
  · subst htoken
    have hnothing := dropWhile_blanks_append (text := []) hblanks nofun
    rw [List.append_nil] at hnothing ⊢
    rw [hnothing]
    rfl
  · have hfront : (token ++ after).head? = token.head? := List.head?_append_of_ne_nil _ htoken
    rw [List.append_assoc, dropWhile_blanks_append hbefore (hfront ▸ hhead), List.reverse_append,
      dropWhile_blanks_append hafter (by simpa using hlast), List.reverse_reverse]

theorem lineToken_of_blanks {before token after : List Char} (hblanks : ∀ c ∈ before ++ after, c.isWhitespace = true)
    (hhash : '#' ∉ token) (hhead : ∀ c, token.head? = some c → c.isWhitespace = false)
    (hlast : ∀ c, token.getLast? = some c → c.isWhitespace = false) :
    lineToken (before ++ token ++ after) = token := by
  have hnohash : '#' ∉ before ++ token ++ after := by
    intro hmem
    have hblank : '#' ∉ before ++ after := fun h => absurd (hblanks '#' h) (by decide)
    simp only [List.mem_append] at hmem hblank
    tauto
  have hkeep : (before ++ token ++ after).takeWhile (fun c => c != '#') = before ++ token ++ after :=
    List.takeWhile_eq_self_iff.2 (ne_hash_of_not_mem hnohash)
  simp only [lineToken, hkeep]
  exact trim_eq hblanks hhead hlast

/-! ### The lines of a program -/

theorem parseProgram_cons_of_blank {line : List Char} (h : lineToken line = []) (rest : List (List Char)) :
    parseProgram (line :: rest) = parseProgram rest := if_pos h

theorem parseProgram_cons_of_token {line : List Char} (h : lineToken line ≠ []) (rest : List (List Char)) :
    parseProgram (line :: rest) =
      (parseToken (lineToken line)).bind fun v => (parseProgram rest).bind fun image => .ok (v :: image) := if_neg h

/-- The image of two texts one after the other. -/
theorem parseProgram_append (earlier later : List (List Char)) :
    parseProgram (earlier ++ later) =
      (parseProgram earlier).bind fun image1 => (parseProgram later).bind fun image2 => .ok (image1 ++ image2) := by
  induction earlier with
  | nil => cases h : parseProgram later <;> simp [parseProgram, Except.bind, h]
  | cons line earlier ih =>
    rw [List.cons_append]
    by_cases hline : lineToken line = []
    · rw [parseProgram_cons_of_blank hline, parseProgram_cons_of_blank hline, ih]
    · rw [parseProgram_cons_of_token hline, parseProgram_cons_of_token hline, ih]
      cases parseToken (lineToken line) with
      | error e => rfl
      | ok v =>
        cases parseProgram earlier with
        | error e => rfl
        | ok image1 => cases parseProgram later <;> rfl

theorem parseProgram_singleton {line : List Char} {v : Byte} (hline : lineToken line ≠ [])
    (hv : parseToken (lineToken line) = .ok v) : parseProgram [line] = .ok [v] := by
  rw [parseProgram_cons_of_token hline, hv]
  rfl

/-- One refused token refuses the text: an earlier one is refused for the same cause. -/
theorem parseProgram_of_refused {lines : List (List Char)} {line : List Char} (hmem : line ∈ lines)
    (hline : lineToken line ≠ []) (hrefused : parseToken (lineToken line) = .error .programLoadError) :
    parseProgram lines = .error .programLoadError := by
  induction hmem with
  | head rest =>
    rw [parseProgram_cons_of_token hline, hrefused]
    rfl
  | @tail first rest _ ih =>
    by_cases hfirst : lineToken first = []
    · rw [parseProgram_cons_of_blank hfirst, ih]
    · rw [parseProgram_cons_of_token hfirst, ih]
      cases hv : parseToken (lineToken first) with
      | error e => rw [parseToken_error hv]; rfl
      | ok v => rfl

theorem loadProgram_of_parse {lines : List (List Char)} {image : List Byte} (h : parseProgram lines = .ok image) :
    loadProgram lines = loadImage image := by
  rw [loadProgram, h]
  rfl

/-- Settles O47: tokens, the token of a line, and the lines in order. -/
theorem loaderTokensAreBytes : Obligations.LoaderTokensAreBytes := by
  refine ⟨fun token => ?_, fun token hlarge => ?_, fun token _ hdigits hle => parseToken_of_accepted ⟨hdigits, hle⟩,
    rfl, fun digits => ⟨binaryValue_append_digit digits '0', binaryValue_append_digit digits '1'⟩, parseToken_msbDigits,
    fun token comment h => lineToken_append_comment h comment, fun _ _ _ => lineToken_of_blanks, rfl,
    fun earlier line rest hblank => ?_, fun earlier later image1 image2 h1 h2 => ?_, fun _ _ => parseProgram_singleton,
    fun _ _ => parseProgram_of_refused, fun _ _ => loadProgram_of_parse⟩
  · rintro ⟨c, hc, hzero, hone⟩
    exact parseToken_of_not_accepted fun hacc => (hacc.1 c hc).elim hzero hone
  · exact parseToken_of_not_accepted fun hacc => absurd hacc.2 (by omega)
  · rw [parseProgram_append, parseProgram_append, parseProgram_cons_of_blank hblank]
  · rw [parseProgram_append, h1, h2]
    rfl

end Sys2Proof.Machine
end
